-- ==== Sys2Proof/Word.lean ====
section
/-!
DEFINITION. The words of the machine: the 64-bit register word and the 32-bit instruction word
(00_scope.md R12, 30_encoding.md R93). Bit 0 is the least significant bit (00_scope.md section 5.1).
-/
namespace Sys2Proof

/-- The contents of `DSPSR_EL0` and of a general register (10_state.md R20, R71). -/
abbrev Xword := BitVec 64

/-- One A64 instruction word (30_encoding.md R93). -/
abbrev Iword := BitVec 32

end Sys2Proof
end

