-- ==== Sys2Proof/Config.lean ====
section
/-!
DEFINITION. What an implementation fixes (00_scope.md section 4, 92_eei_decisions.md section 2) and the
values nobody fixes (92_eei_decisions.md D4).
-/
namespace Sys2Proof

/-- The Exception levels (00_scope.md R10, section 6). -/
inductive EL where
  | el0 | el1 | el2 | el3
  deriving DecidableEq, Repr, Inhabited

/-- A set of Exception levels, one Boolean for each (00_scope.md R10, R11). -/
structure ElSet where
  el0 : Bool
  el1 : Bool
  el2 : Bool
  el3 : Bool
  deriving DecidableEq, Repr, Inhabited

/-- The two behaviours a RES0 bit may have (92_eei_decisions.md D3, 41_sysreg_access.md R133). -/
inductive Res0Policy where
  | razWi
  | stored
  deriving DecidableEq, Repr, Inhabited

/-- The nine AArch32 modes of `M[3:0]` in view A32 (10_state.md R45). -/
inductive A32Mode where
  | user | fiq | irq | supervisor | monitor | abort | hyp | undefined | system
  deriving DecidableEq, Repr, Inhabited

/-- The parameter `A32_MODE_EL`: the Exception level of each AArch32 mode
(40_debug_state_transfer.md R117, 92_eei_decisions.md D24). -/
structure A32ModeEl where
  user       : EL
  fiq        : EL
  irq        : EL
  supervisor : EL
  monitor    : EL
  abort      : EL
  hyp        : EL
  undefined  : EL
  system     : EL
  deriving DecidableEq, Repr, Inhabited

/-- The parameter `SYSREG_WORD_LAYOUT`: where a 32-bit word holds the fields of a System register move
(30_encoding.md R93, 92_eei_decisions.md D10). Each place is the field's lowest bit. -/
structure SysregWordLayout where
  /-- The ten bits every System register move has, and their place. -/
  fixedBits : BitVec 10
  fixedLo   : Nat
  /-- The direction bit's value in a write, and its place. -/
  writeBit  : BitVec 1
  lLo       : Nat
  /-- `op0`, whose high bit is 1 in every System register move. -/
  op0Lo     : Nat
  op1Lo     : Nat
  crnLo     : Nat
  crmLo     : Nat
  op2Lo     : Nat
  rtLo      : Nat
  deriving DecidableEq, Repr, Inhabited

/-- The parameters of the model (00_scope.md R3 to R11, 92_eei_decisions.md section 2).
`BE_SUPPORTED` and `LE_SUPPORTED` are computed from the per-level ones (D17). -/
structure Params where
  haveDit          : Bool
  haveSsbs         : Bool
  havePan          : Bool
  haveUao          : Bool
  haveMte          : Bool
  haveBti          : Bool
  haveAArch32AnyEl : Bool
  beSupportedAt    : ElSet
  leSupportedAt    : ElSet
  implementedEl    : ElSet
  res0Policy       : Res0Policy
  rt31IsZr         : Bool
  a32ModeEl        : A32ModeEl
  sysregWordLayout : SysregWordLayout
  deriving DecidableEq, Repr, Inhabited

namespace Config

/-- The implementation at hand. The source fixes no parameter (92_eei_decisions.md D29), so the constant
has no body: DESIGN CHOICE, log 4. -/
opaque implementation : Params

/-- The default of `A32_MODE_EL` (40_debug_state_transfer.md R117). PRESUMED, log 10. -/
def a32ModeElDefault : A32ModeEl where
  user       := .el0
  fiq        := .el1
  irq        := .el1
  supervisor := .el1
  monitor    := .el3
  abort      := .el1
  hyp        := .el2
  undefined  := .el1
  system     := .el1

/-- The default of `SYSREG_WORD_LAYOUT`: the layout of 30_encoding.md R93, with bit [20] the high bit of
`op0` and `L = 0` for a write. PRESUMED (general knowledge GK3), log 8. -/
def sysregWordLayoutDefault : SysregWordLayout where
  fixedBits := 0b1101010100#10
  fixedLo   := 22
  writeBit  := 0#1
  lLo       := 21
  op0Lo     := 19
  op1Lo     := 16
  crnLo     := 12
  crmLo     := 8
  op2Lo     := 5
  rtLo      := 0

/-- The parameters of the launch state `State.reset`: the unknown implementation's, with the spec's
default where 92_eei_decisions.md section 2 gives one. PRESUMED, log 4. -/
def atReset : Params :=
  { implementation with
    rt31IsZr         := true
    a32ModeEl        := a32ModeElDefault
    sysregWordLayout := sysregWordLayoutDefault }

/-- `draw(w)`: the free values (00_scope.md section 5.2, 92_eei_decisions.md D4). `n` is the number of the
step that draws, `k` tells apart the values one step draws. No body: nothing constrains it. Log 1, log 31. -/
opaque freeBits (w n k : Nat) : BitVec w

/-- Which `IT` values are "valid for the instruction being returned to": not in the source
(40_debug_state_transfer.md R112, 92_eei_decisions.md D16). `n` stands for the exit at hand. Read by no
step, only by the premise `ItValidForReturn`. Log 29. -/
opaque itValid (n : Nat) (it : BitVec 8) : Bool

end Config

end Sys2Proof
end

