-- ==== Sys2Proof/Syntax.lean ====
section
/-!
DEFINITION. The instructions, one constructor for each row of spec/opcode_table.json.
-/
namespace Sys2Proof

/-- What the operand `<Xt>` names (10_state.md R71, 30_encoding.md R94): one of the 31 general
registers, or register number 31. PRESUMED (general knowledge GK2), log 9. -/
inductive Xt where
  | gpr (n : Fin 31)
  | r31
  deriving DecidableEq, Repr

/-- The two instructions of the spec (41_sysreg_access.md R130). -/
inductive Instr where
  /-- `MRS <Xt>, DSPSR_EL0` (41_sysreg_access.md R131). -/
  | mrsDspsr (t : Xt)
  /-- `MSR DSPSR_EL0, <Xt>` (41_sysreg_access.md R132). -/
  | msrDspsr (t : Xt)
  deriving DecidableEq, Repr

end Sys2Proof
end

