-- ==== Sys2Proof/Decode.lean ====
section
/-!
DEFINITION. The decoder, total on 32-bit words, and the encoder, both through the decoded form
`(L, op0, op1, CRn, CRm, op2, t)` of 30_encoding.md R93 and the parameter `SYSREG_WORD_LAYOUT`
(92_eei_decisions.md D10).
-/
namespace Sys2Proof

/-- Why a word is no instruction of this spec: the one verdict of 30_encoding.md R95. -/
inductive DecodeError where
  | notInThisSpec
  deriving DecidableEq, Repr

/-- A System register move in its decoded form (30_encoding.md R90, R93): what the source gives. `l` is 1
for a read and 0 for a write. -/
structure SysregMove where
  l   : BitVec 1
  op0 : BitVec 2
  op1 : BitVec 3
  crn : BitVec 4
  crm : BitVec 4
  op2 : BitVec 3
  rt  : BitVec 5
  deriving DecidableEq, Repr

/-- The System register move a word holds, if it holds one: the fixed bits and the high bit of
`op0` must read as 30_encoding.md R93 says. -/
def sysregMoveOf (y : SysregWordLayout) (w : Iword) : Option SysregMove :=
  let op0 := w.extractLsb' y.op0Lo 2
  if w.extractLsb' y.fixedLo 10 = y.fixedBits ∧ op0.msb = true then
    some
      { l   := w.extractLsb' y.lLo 1 ^^^ y.writeBit
        op0 := op0
        op1 := w.extractLsb' y.op1Lo 3
        crn := w.extractLsb' y.crnLo 4
        crm := w.extractLsb' y.crmLo 4
        op2 := w.extractLsb' y.op2Lo 3
        rt  := w.extractLsb' y.rtLo 5 }
  else
    none

/-- The word that holds a System register move (30_encoding.md R93). -/
def wordOfSysregMove (y : SysregWordLayout) (m : SysregMove) : Iword :=
  y.fixedBits.setWidth 32 <<< y.fixedLo ||| (m.l ^^^ y.writeBit).setWidth 32 <<< y.lLo |||
    m.op0.setWidth 32 <<< y.op0Lo ||| m.op1.setWidth 32 <<< y.op1Lo |||
    m.crn.setWidth 32 <<< y.crnLo ||| m.crm.setWidth 32 <<< y.crmLo |||
    m.op2.setWidth 32 <<< y.op2Lo ||| m.rt.setWidth 32 <<< y.rtLo

/-- The five selecting fields are those of `DSPSR_EL0` (30_encoding.md R91). -/
def SysregMove.selectsDspsr (m : SysregMove) : Bool :=
  m.op0 = 0b11#2 && m.op1 = 0b011#3 && m.crn = 0b0100#4 && m.crm = 0b0101#4 && m.op2 = 0b000#3

/-- The operand a register number names (30_encoding.md R94). -/
def xtOfNumber (b : BitVec 5) : Xt :=
  if h : b.toNat < 31 then .gpr ⟨b.toNat, h⟩ else .r31

/-- The register number of an operand. -/
def numberOfXt : Xt → BitVec 5
  | .gpr n => BitVec.ofNat 5 n.val
  | .r31 => 31#5

/-- The verdict on a decoded form (30_encoding.md R91, R92, R95): `L = 1` reads, `L = 0` writes. -/
def instrOfMove (m : SysregMove) : Except DecodeError Instr :=
  if m.selectsDspsr then
    if m.l = 1#1 then .ok (.mrsDspsr (xtOfNumber m.rt)) else .ok (.msrDspsr (xtOfNumber m.rt))
  else
    .error .notInThisSpec

/-- The decoder under the word layout `y` (30_encoding.md R95): one of the two instructions, or
`notInThisSpec`. -/
def decode (y : SysregWordLayout) (w : Iword) : Except DecodeError Instr :=
  match sysregMoveOf y w with
  | some m => instrOfMove m
  | none => .error .notInThisSpec

/-- The decoded form of an instruction (30_encoding.md R91, R93). -/
def moveOfInstr : Instr → SysregMove
  | .mrsDspsr t =>
    { l := 1#1, op0 := 0b11#2, op1 := 0b011#3, crn := 0b0100#4, crm := 0b0101#4, op2 := 0b000#3,
      rt := numberOfXt t }
  | .msrDspsr t =>
    { l := 0#1, op0 := 0b11#2, op1 := 0b011#3, crn := 0b0100#4, crm := 0b0101#4, op2 := 0b000#3,
      rt := numberOfXt t }

/-- The encoder under the word layout `y`: the instruction's one word. -/
def encode (y : SysregWordLayout) (i : Instr) : Iword :=
  wordOfSysregMove y (moveOfInstr i)

/-- The word whose bits are `w`, of which the table gives `nbits`; the bits above are zero. -/
def tableWord (nbits w : Nat) : Iword :=
  BitVec.ofNat 32 (w % 2 ^ nbits)

/-- The instruction the decoder reads from a word numbered as spec/opcode_table.json numbers it: the
table's words are those of the default layout. -/
def decodeTableWord (nbits w : Nat) : Option Instr :=
  match decode Config.sysregWordLayoutDefault (tableWord nbits w) with
  | .ok i => some i
  | .error _ => none

end Sys2Proof
end

