-- ==== Sys2Proof/Machine/State.lean ====
section
/-!
DEFINITION. The state of the machine (10_state.md), as plain data; what a step can stop with; the state
after reset (10_state.md R75, 70_reset_and_hazards.md R160, R161).
-/
namespace Sys2Proof.Machine

/-- The contents of a register of `w` bits. `unknown` marks contents that are "architecturally UNKNOWN":
the register then "holds no value" and every read of it is a fresh free value (10_state.md R75,
92_eei_decisions.md D4). Stored bits under the mark are read by nothing. DESIGN CHOICE, log 1. -/
structure Held (w : Nat) where
  bits    : BitVec w
  unknown : Bool
  deriving DecidableEq, Repr

/-- A register that holds the value `v`. -/
def Held.known {w : Nat} (v : BitVec w) : Held w :=
  ⟨v, false⟩

/-- A register that holds no value. The bits under the mark are zero by DESIGN CHOICE, log 2. -/
def Held.unk (w : Nat) : Held w :=
  ⟨0#w, true⟩

/-- The process state (10_state.md R70), a field for each field of `PSTATE`. A field whose feature is
absent does not exist: it never holds a value (log 26). -/
structure Pstate where
  n     : Held 1
  z     : Held 1
  c     : Held 1
  v     : Held 1
  q     : Held 1
  it    : Held 8
  tco   : Held 1
  dit   : Held 1
  uao   : Held 1
  ssbs  : Held 1
  pan   : Held 1
  ss    : Held 1
  il    : Held 1
  ge    : Held 4
  btype : Held 2
  e     : Held 1
  d     : Held 1
  a     : Held 1
  i     : Held 1
  f     : Held 1
  t     : Held 1
  nRW   : Held 1
  m     : Held 4
  el    : Held 2
  sp    : Held 1
  deriving DecidableEq, Repr

/-- A process state in which no field holds a value (40_debug_state_transfer.md R103, R109,
60_exceptions.md R141, 70_reset_and_hazards.md R161). -/
def Pstate.unk : Pstate where
  n     := .unk 1
  z     := .unk 1
  c     := .unk 1
  v     := .unk 1
  q     := .unk 1
  it    := .unk 8
  tco   := .unk 1
  dit   := .unk 1
  uao   := .unk 1
  ssbs  := .unk 1
  pan   := .unk 1
  ss    := .unk 1
  il    := .unk 1
  ge    := .unk 4
  btype := .unk 2
  e     := .unk 1
  d     := .unk 1
  a     := .unk 1
  i     := .unk 1
  f     := .unk 1
  t     := .unk 1
  nRW   := .unk 1
  m     := .unk 4
  el    := .unk 2
  sp    := .unk 1

/-- What an agent does next (60_exceptions.md R147): the PE executes an instruction word; the environment
causes Debug state entry, Debug state exit or reset, or writes a general register. -/
inductive Action where
  /-- The PE executes the word `w` (41_sysreg_access.md R130). -/
  | word (w : Iword)
  /-- Debug state entry (40_debug_state_transfer.md R100). -/
  | debugEntry
  /-- Debug state exit (40_debug_state_transfer.md R105), with the truth at this exit of the two open
  predicates `SS_COPY_CONDITION` (R111) and `OTHER_ILLEGAL_RETURN` (R116). DESIGN CHOICE, log 7. -/
  | debugExit (ssCopyCondition otherIllegalReturn : Bool)
  /-- Reset (70_reset_and_hazards.md R160). -/
  | reset
  /-- The environment changes `x[n]` by means outside the spec (60_exceptions.md R147). -/
  | setX (n : Fin 31) (v : Xword)
  deriving DecidableEq, Repr

/-- The state of the machine. -/
structure State where
  /-- The parameters of the implementation; no step writes them. Log 5. -/
  params    : Params
  /-- `DSPSR_EL0` (10_state.md R20). -/
  dspsr     : Held 64
  /-- The general registers `x[0]` to `x[30]` (10_state.md R71). -/
  x         : Vector (Held 64) 31
  /-- `PSTATE` (10_state.md R70). -/
  pstate    : Pstate
  /-- True exactly while the PE is in Debug state (10_state.md R72). -/
  halted    : Bool
  /-- The model's own: the number of the next step that may draw free values. Log 31. -/
  drawIndex : Nat
  /-- The model's own: what the agents do next, the head first. Log 6. -/
  schedule  : List Action
  deriving DecidableEq, Repr

/-- What stops the machine. -/
inductive Fault where
  /-- `MRS` or `MSR` of `DSPSR_EL0` outside Debug state: no state changes (60_exceptions.md R140). Raised by
  `raiseUndefined`. Safe: the exception the architecture takes is not in the spec (log 18). -/
  | undefined
  /-- Debug state exit with a register value `d` that makes it an illegal return event
  (60_exceptions.md R141). `left` is the state it leaves: Debug state left, `DSPSR_EL0` unchanged, no
  `PSTATE` field with a value. Raised by `debugExit`. Safe: the run ends (log 17). -/
  | illegalReturn (d : Xword) (left : State)
  deriving DecidableEq, Repr

/-- What the model gives no meaning to. -/
inductive Refusal where
  /-- An instruction that has no meaning yet, by its mnemonic. No arm answers with it. Safe. -/
  | notModelled (mnemonic : String)
  /-- A word that is no instruction of this spec (30_encoding.md R95). Raised by `runWord`. Safe (log 20). -/
  | notInThisSpec
  /-- Register number 31 on an implementation where `RT31_IS_ZR` is false (30_encoding.md R94). Raised by the
  two instructions. Safe (log 9). -/
  | register31NotZr
  /-- Debug state entry from AArch32 state (40_debug_state_transfer.md R102). Raised by `debugEntry`.
  Safe (log 19). -/
  | entryFromAArch32NotInSource
  /-- Debug state entry while in Debug state: the event is not enabled (40_debug_state_transfer.md R100).
  Raised by `debugEntry`. Safe (log 21). -/
  | debugEntryNotEnabled
  /-- Debug state exit while not in Debug state: the event is not enabled
  (40_debug_state_transfer.md R105). Raised by `debugExit`. Safe (log 21). -/
  | debugExitNotEnabled
  deriving DecidableEq, Repr

/-- The launch state after a reset: no register holds a value (70_reset_and_hazards.md R160, R161).
`halted` is free in the spec; here it is true by DESIGN CHOICE, log 3. The parameters are the unknown
implementation's, log 4. -/
def State.reset : State where
  params    := Config.atReset
  dspsr     := .unk 64
  x         := Vector.replicate 31 (.unk 64)
  pstate    := .unk
  halted    := true
  drawIndex := 0
  schedule  := []

end Sys2Proof.Machine
end

