-- ==== Sys2Proof/Machine/Bits.lean ====
section
/-!
DEFINITION. Slices of the register (00_scope.md section 5.1, 5.2).
-/
namespace Sys2Proof.Machine

/-- `v[lo+w-1 : lo]`, a vector of `w` bits. -/
def slice (v : Xword) (lo w : Nat) : BitVec w :=
  v.extractLsb' lo w

/-- The register word with ones in bits `[lo+w-1 : lo]` and zeros elsewhere. -/
def span (lo w : Nat) : Xword :=
  (BitVec.allOnes w).setWidth 64 <<< lo

/-- `d[lo+w-1 : lo] <- f`; the other bits are unchanged. -/
def put {w : Nat} (lo : Nat) (f : BitVec w) (d : Xword) : Xword :=
  (d &&& ~~~(span lo w)) ||| f.setWidth 64 <<< lo

/-- `if b then d[lo+w-1 : lo] <- f`. -/
def putIf {w : Nat} (b : Bool) (lo : Nat) (f : BitVec w) (d : Xword) : Xword :=
  if b then put lo f d else d

/-- `span lo w` where `b` holds, no bit where it does not. -/
def spanIf (b : Bool) (lo w : Nat) : Xword :=
  if b then span lo w else 0#64

end Sys2Proof.Machine
end

