-- ==== Sys2Proof/Machine/Views.lean ====
section
/-!
DEFINITION. What the two views of the register say of an implementation: the reserved bits
(10_state.md R69), the modes of `M[3:0]` (R45, R67), the Exception level returned to
(40_debug_state_transfer.md R117) and the effective `E` bit (R113).
-/
namespace Sys2Proof.Machine

/-- `EL(b)`: the Exception level whose number is `b` (10_state.md R68). -/
def elOfBits (b : BitVec 2) : EL :=
  if b = 0#2 then .el0 else if b = 1#2 then .el1 else if b = 2#2 then .el2 else .el3

/-- The Exception level is in the set. -/
def elSetHas (s : ElSet) : EL → Bool
  | .el0 => s.el0
  | .el1 => s.el1
  | .el2 => s.el2
  | .el3 => s.el3

/-- The set holds some Exception level. -/
def elSetAny (s : ElSet) : Bool :=
  s.el0 || s.el1 || s.el2 || s.el3

/-- `BE_SUPPORTED` (00_scope.md R10, 92_eei_decisions.md D17). DEDUCED, log 22. -/
def beSupported (c : Params) : Bool :=
  elSetAny c.beSupportedAt

/-- `LE_SUPPORTED` (00_scope.md R10, 92_eei_decisions.md D17). DEDUCED, log 22. -/
def leSupported (c : Params) : Bool :=
  elSetAny c.leSupportedAt

/-- The bits with `Res0Eff` (10_state.md R69). -/
def res0Eff (c : Params) : Xword :=
  span 32 32 |||
    spanIf (!c.haveDit) 24 1 |||
    spanIf (!c.havePan) 22 1 |||
    spanIf (!c.haveSsbs && !c.haveUao) 23 1 |||
    spanIf (!c.haveAArch32AnyEl) 26 2 |||
    spanIf (!c.haveAArch32AnyEl && !c.haveMte) 25 1 |||
    spanIf (!c.haveAArch32AnyEl && !c.haveUao) 23 1 |||
    spanIf (!c.haveAArch32AnyEl) 13 7 |||
    spanIf (!c.haveAArch32AnyEl && !c.haveSsbs) 12 1 |||
    spanIf (!c.haveAArch32AnyEl && !c.haveBti) 10 2 |||
    spanIf (!c.haveAArch32AnyEl) 5 1 |||
    spanIf (!c.haveAArch32AnyEl) 4 1

/-- `WriteMask(v)` (41_sysreg_access.md R133): under `RAZ_WI` the bits with `Res0Eff` are cleared, under
`STORED` none is. -/
def writeMask (c : Params) (v : Xword) : Xword :=
  match c.res0Policy with
  | .razWi => v &&& ~~~(res0Eff c)
  | .stored => v

/-- The AArch32 mode of `M[3:0]` in view A32, none for a reserved value (10_state.md R45). -/
def a32ModeOfBits (m : BitVec 4) : Option A32Mode :=
  if m = 0b0000#4 then some .user
  else if m = 0b0001#4 then some .fiq
  else if m = 0b0010#4 then some .irq
  else if m = 0b0011#4 then some .supervisor
  else if m = 0b0110#4 then some .monitor
  else if m = 0b0111#4 then some .abort
  else if m = 0b1010#4 then some .hyp
  else if m = 0b1011#4 then some .undefined
  else if m = 0b1111#4 then some .system
  else none

/-- `A32_MODE_EL` (40_debug_state_transfer.md R117). -/
def a32ModeLevel (c : Params) : A32Mode → EL
  | .user       => c.a32ModeEl.user
  | .fiq        => c.a32ModeEl.fiq
  | .irq        => c.a32ModeEl.irq
  | .supervisor => c.a32ModeEl.supervisor
  | .monitor    => c.a32ModeEl.monitor
  | .abort      => c.a32ModeEl.abort
  | .hyp        => c.a32ModeEl.hyp
  | .undefined  => c.a32ModeEl.undefined
  | .system     => c.a32ModeEl.system

/-- The seven listed values of `M[3:0]` in view A64 (10_state.md R67). -/
inductive A64Mode where
  | el0t | el1t | el1h | el2t | el2h | el3t | el3h
  deriving DecidableEq, Repr

/-- The meaning of `M[3:0]` in view A64, none for a reserved value (10_state.md R67). -/
def a64ModeOfBits (m : BitVec 4) : Option A64Mode :=
  if m = 0b0000#4 then some .el0t
  else if m = 0b0100#4 then some .el1t
  else if m = 0b0101#4 then some .el1h
  else if m = 0b1000#4 then some .el2t
  else if m = 0b1001#4 then some .el2h
  else if m = 0b1100#4 then some .el3t
  else if m = 0b1101#4 then some .el3h
  else none

/-- The Exception level of a value of `M[3:0]` in view A64: its bits `M[3:2]` (10_state.md R68). -/
def a64ModeLevel (m : BitVec 4) : EL :=
  elOfBits (m.extractLsb' 2 2)

/-- `m4` of 40_debug_state_transfer.md R105: bit [4], taken as 0 when AArch32 is supported nowhere (R114). -/
def viewBit (c : Params) (d : Xword) : BitVec 1 :=
  if c.haveAArch32AnyEl then slice d 4 1 else 0#1

/-- Where an exit with a listed value of `M[3:0]` goes. -/
inductive ReturnTarget where
  | aarch64 (level : EL)
  | aarch32 (mode : A32Mode)
  deriving DecidableEq, Repr

/-- Where a register value says the exit goes, read in the view bit [4] selects; none where `M[3:0]` is
reserved in that view (40_debug_state_transfer.md R105, R116). -/
def returnTarget (c : Params) (d : Xword) : Option ReturnTarget :=
  if viewBit c d = 0#1 then
    (a64ModeOfBits (slice d 0 4)).map fun _ => .aarch64 (a64ModeLevel (slice d 0 4))
  else
    (a32ModeOfBits (slice d 0 4)).map .aarch32

/-- The Exception level being returned to (40_debug_state_transfer.md R117). -/
def returnLevel (c : Params) : ReturnTarget → EL
  | .aarch64 level => level
  | .aarch32 mode => a32ModeLevel c mode

/-- `EffE(e, el)` (40_debug_state_transfer.md R113). -/
def effE (c : Params) (e : BitVec 1) (el : EL) : BitVec 1 :=
  if !beSupported c || !elSetHas c.beSupportedAt el then 0#1
  else if !leSupported c || !elSetHas c.leSupportedAt el then 1#1
  else e

end Sys2Proof.Machine
end

