-- ==== Sys2Proof/Machine/Operands.lean ====
section
/-!
DEFINITION. The one operand form, `<Xt>` (30_encoding.md R92, R94), and every read and write of a register.
-/
namespace Sys2Proof.Machine

/-- The value a read of a register gives: what it holds, or where it holds none the free value number `k`
of step `n` (10_state.md R75, 92_eei_decisions.md D4). Log 1, log 31. -/
def heldValue {w : Nat} (h : Held w) (n k : Nat) : BitVec w :=
  if h.unknown then Config.freeBits w n k else h.bits

/-- The value a read of `DSPSR_EL0` gives. Bits with `Res0Eff` of an UNKNOWN register read as zero under
`RAZ_WI` (10_state.md R75, 41_sysreg_access.md R133). -/
def readDspsr (s : State) : Xword :=
  if s.dspsr.unknown then writeMask s.params (Config.freeBits 64 s.drawIndex 0) else s.dspsr.bits

/-- `DSPSR_EL0 <- WriteMask(v)` (41_sysreg_access.md R132). -/
def writeDspsr (s : State) (v : Xword) : State :=
  { s with dspsr := .known (writeMask s.params v) }

/-- The value of `x[n]`. -/
def readX (s : State) (n : Fin 31) : Xword :=
  heldValue s.x[n] s.drawIndex 0

/-- `x[n] <- v`. -/
def writeX (s : State) (n : Fin 31) (v : Xword) : State :=
  { s with x := s.x.set n.val (.known v) n.isLt }

/-- The value of a source operand; register number 31 reads as zero where `RT31_IS_ZR` and is no operand
where not (30_encoding.md R94). -/
def readOperand (s : State) : Xt → Option Xword
  | .gpr n => some (readX s n)
  | .r31 => if s.params.rt31IsZr then some 0#64 else none

/-- The state after a write to a destination operand; register number 31 discards the value where
`RT31_IS_ZR` and is no operand where not (30_encoding.md R94). -/
def writeOperand (s : State) (v : Xword) : Xt → Option State
  | .gpr n => some (writeX s n v)
  | .r31 => if s.params.rt31IsZr then some s else none

/-- The state after a step that may have drawn free values: the next step draws fresh ones. Log 31. -/
def advance (s : State) : State :=
  { s with drawIndex := s.drawIndex + 1 }

end Sys2Proof.Machine
end

