-- ==== Sys2Proof/Machine/Flags.lean ====
section
/-!
DEFINITION. The condition flags and the rest of `PSTATE`. No instruction of the spec computes a flag
(41_sysreg_access.md R135); flags are saved to the register at Debug state entry
(40_debug_state_transfer.md R101) and restored from it at Debug state exit (R107, R108).
-/
namespace Sys2Proof.Machine

/-- The value Debug state entry from AArch64 state writes to `DSPSR_EL0`: view A64 of `PSTATE`, with zero
in every bit that view A64 marks RES0 (40_debug_state_transfer.md R101; DEDUCED, log 12). A field that holds
no value gives the free value numbered by its bit position, of step `n`. -/
def saveA64 (c : Params) (p : Pstate) (n : Nat) : Xword :=
  put 31 (heldValue p.n n 31) <|
  put 30 (heldValue p.z n 30) <|
  put 29 (heldValue p.c n 29) <|
  put 28 (heldValue p.v n 28) <|
  putIf c.haveMte 25 (heldValue p.tco n 25) <|
  putIf c.haveDit 24 (heldValue p.dit n 24) <|
  putIf c.haveUao 23 (heldValue p.uao n 23) <|
  putIf c.havePan 22 (heldValue p.pan n 22) <|
  put 21 (heldValue p.ss n 21) <|
  put 20 (heldValue p.il n 20) <|
  putIf c.haveSsbs 12 (heldValue p.ssbs n 12) <|
  putIf c.haveBti 10 (heldValue p.btype n 10) <|
  put 9 (heldValue p.d n 9) <|
  put 8 (heldValue p.a n 8) <|
  put 7 (heldValue p.i n 7) <|
  put 6 (heldValue p.f n 6) <|
  put 4 (0#1) <|
  put 2 (heldValue p.el n 2) <|
  put 0 (heldValue p.sp n 0) <|
  0#64

/-- A field of `PSTATE` that exists only with its feature: the value where the feature is there, no value
where it is not (10_state.md R70, 40_debug_state_transfer.md R115). -/
def ifHave {w : Nat} (b : Bool) (v : BitVec w) : Held w :=
  if b then .known v else .unk w

/-- `PSTATE` after an exit to AArch64 state (40_debug_state_transfer.md R107). `SS` is copied when
`SS_COPY_CONDITION` holds and holds no value otherwise (R111); the fields view A64 does not name hold no
value (R109). -/
def restoreA64 (c : Params) (ssCopyCondition : Bool) (d : Xword) : Pstate :=
  { Pstate.unk with
    n     := .known (slice d 31 1)
    z     := .known (slice d 30 1)
    c     := .known (slice d 29 1)
    v     := .known (slice d 28 1)
    tco   := ifHave c.haveMte (slice d 25 1)
    dit   := ifHave c.haveDit (slice d 24 1)
    uao   := ifHave c.haveUao (slice d 23 1)
    pan   := ifHave c.havePan (slice d 22 1)
    ss    := ifHave ssCopyCondition (slice d 21 1)
    il    := .known (slice d 20 1)
    ssbs  := ifHave c.haveSsbs (slice d 12 1)
    btype := ifHave c.haveBti (slice d 10 2)
    d     := .known (slice d 9 1)
    a     := .known (slice d 8 1)
    i     := .known (slice d 7 1)
    f     := .known (slice d 6 1)
    nRW   := .known 0#1
    el    := .known (slice d 2 2)
    sp    := .known (slice d 0 1) }

/-- `PSTATE` after an exit to AArch32 state, to a mode of Exception level `el`
(40_debug_state_transfer.md R108, R113). `SS` is copied without a condition (R111, log 16); the fields view
A32 does not name hold no value (R109). -/
def restoreA32 (c : Params) (el : EL) (d : Xword) : Pstate :=
  { Pstate.unk with
    n    := .known (slice d 31 1)
    z    := .known (slice d 30 1)
    c    := .known (slice d 29 1)
    v    := .known (slice d 28 1)
    q    := .known (slice d 27 1)
    it   := .known (slice d 10 6 ++ slice d 25 2)
    dit  := ifHave c.haveDit (slice d 24 1)
    ssbs := ifHave c.haveSsbs (slice d 23 1)
    pan  := ifHave c.havePan (slice d 22 1)
    ss   := .known (slice d 21 1)
    il   := .known (slice d 20 1)
    ge   := .known (slice d 16 4)
    e    := .known (effE c (slice d 9 1) el)
    a    := .known (slice d 8 1)
    i    := .known (slice d 7 1)
    f    := .known (slice d 6 1)
    t    := .known (slice d 5 1)
    nRW  := .known 1#1
    m    := .known (slice d 0 4) }

/-- `PSTATE` after an exit to a target, read in the target's view (40_debug_state_transfer.md R105). -/
def restorePstate (c : Params) (ssCopyCondition : Bool) (d : Xword) : ReturnTarget → Pstate
  | .aarch64 _ => restoreA64 c ssCopyCondition d
  | .aarch32 mode => restoreA32 c (a32ModeLevel c mode) d

end Sys2Proof.Machine
end

