-- ==== Sys2Proof/Machine/Ops.lean ====
section
/-!
DEFINITION. The events that change the state without an instruction: the `Undefined` outcome, Debug state
entry (the save of state) and Debug state exit (its return), reset, and the environment's write of a register.
-/
namespace Sys2Proof.Machine

/-- `raise Undefined()`: no state changes, the outcome is the named fault (60_exceptions.md R140). -/
def raiseUndefined : Host.Outcome State Fault Refusal :=
  .fault .undefined

/-- An instruction that executes only in Debug state: `if !Halted() then UNDEFINED; else …`
(41_sysreg_access.md R130, R134). The effect is `none` where the operand is register number 31 and
`RT31_IS_ZR` is false; the guard comes first (DEDUCED, log 9). -/
def inDebugState (s : State) (effect : Option State) : Host.Outcome State Fault Refusal :=
  if s.halted then
    match effect with
    | some t => .next (advance t)
    | none => .refused .register31NotZr
  else
    raiseUndefined

/-- Event `DebugEntry` (40_debug_state_transfer.md R100 to R103): from AArch64 state the register is written
in view A64, Debug state is entered and no `PSTATE` field holds a value afterwards (log 15). -/
def debugEntry (s : State) : Host.Outcome State Fault Refusal :=
  if s.halted then
    .refused .debugEntryNotEnabled
  else if heldValue s.pstate.nRW s.drawIndex 4 = 0#1 then
    .next (advance
      { s with
        dspsr  := .known (saveA64 s.params s.pstate s.drawIndex)
        pstate := .unk
        halted := true })
  else
    .refused .entryFromAArch32NotInSource

/-- The state an illegal return event leaves (60_exceptions.md R141, log 17). -/
def illegalReturnState (s : State) : State :=
  advance { s with halted := false, pstate := .unk }

/-- Event `DebugExit` (40_debug_state_transfer.md R105, R110): the register is read in the view its bit [4]
selects; the illegal return condition (R116) comes before any `PSTATE` field is written. -/
def debugExit (ssCopyCondition otherIllegalReturn : Bool) (s : State) :
    Host.Outcome State Fault Refusal :=
  if s.halted then
    match returnTarget s.params (readDspsr s) with
    | none => .fault (.illegalReturn (readDspsr s) (illegalReturnState s))
    | some target =>
      if elSetHas s.params.implementedEl (returnLevel s.params target) && !otherIllegalReturn then
        .next (advance
          { s with
            halted := false
            pstate := restorePstate s.params ssCopyCondition (readDspsr s) target })
      else
        .fault (.illegalReturn (readDspsr s) (illegalReturnState s))
  else
    .refused .debugExitNotEnabled

/-- Event `Reset` (70_reset_and_hazards.md R160, R161): no register holds a value afterwards and `halted` is
a free Boolean. The parameters and the agents' further actions are no state of the machine to reset
(log 32). -/
def resetEvent (s : State) : Host.Outcome State Fault Refusal :=
  .next (advance
    { s with
      dspsr  := .unk 64
      x      := Vector.replicate 31 (.unk 64)
      pstate := .unk
      halted := Config.freeBits 1 s.drawIndex 0 = 1#1 })

/-- The environment changes `x[n]` (60_exceptions.md R147). Log 27. -/
def setXEvent (n : Fin 31) (v : Xword) (s : State) : Host.Outcome State Fault Refusal :=
  .next (advance (writeX s n v))

end Sys2Proof.Machine
end

