-- ==== Sys2Proof/Machine/Sysreg.lean ====
section
/-!
DEFINITION. The meanings of the two System register access instructions (41_sysreg_access.md).
-/
namespace Sys2Proof.Machine

/-- `MRS <Xt>, DSPSR_EL0` (41_sysreg_access.md R131, R133; 30_encoding.md R94). -/
def execMrsDspsr (t : Xt) (s : State) : Host.Outcome State Fault Refusal :=
  inDebugState s (writeOperand s (readDspsr s) t)

/-- `MSR DSPSR_EL0, <Xt>` (41_sysreg_access.md R132, R133; 30_encoding.md R94). -/
def execMsrDspsr (t : Xt) (s : State) : Host.Outcome State Fault Refusal :=
  inDebugState s ((readOperand s t).map (writeDspsr s))

end Sys2Proof.Machine
end

