-- ==== Sys2Proof/Machine/Dispatch.lean ====
section
/-!
DEFINITION. Which meaning each instruction has.
-/
namespace Sys2Proof.Machine

def exec (i : Instr) (s : State) : Host.Outcome State Fault Refusal :=
  match i with
  | .mrsDspsr t => Sys2Proof.Machine.execMrsDspsr t s
  | .msrDspsr t => Sys2Proof.Machine.execMsrDspsr t s

end Sys2Proof.Machine
end

