-- ==== Sys2Proof/Machine/Run.lean ====
section
/-!
DEFINITION. What one action of an agent does (60_exceptions.md R147), and how the next action is taken.
-/
namespace Sys2Proof.Machine

/-- The PE executes a word: the instruction it decodes to under the implementation's word layout, or the
refusal by name (30_encoding.md R95). -/
def runWord (w : Iword) (s : State) : Host.Outcome State Fault Refusal :=
  match decode s.params.sysregWordLayout w with
  | .ok i => exec i s
  | .error _ => .refused .notInThisSpec

/-- One action of an agent. -/
def runAction (a : Action) (s : State) : Host.Outcome State Fault Refusal :=
  match a with
  | .word w => runWord w s
  | .debugEntry => debugEntry s
  | .debugExit ssCopyCondition otherIllegalReturn => debugExit ssCopyCondition otherIllegalReturn s
  | .reset => resetEvent s
  | .setX n v => setXEvent n v s

/-- The next action is taken off the schedule and done; where no agent acts nothing changes. Log 6. -/
def runNext (s : State) : Host.Outcome State Fault Refusal :=
  match s.schedule with
  | [] => .next s
  | a :: rest => runAction a { s with schedule := rest }

/-- The state in which the PE's execution of `w` is the next action. -/
def supplyWord (w : Iword) (s : State) : State :=
  { s with schedule := .word w :: s.schedule }

end Sys2Proof.Machine
end

