-- ==== Sys2Proof/Machine/Step.lean ====
section
/-!
DEFINITION. One step of the machine, and how the host supplies an instruction word.
-/
namespace Sys2Proof.Machine

/-- One whole action of one agent (60_exceptions.md R147). -/
def step (s : State) : Host.Outcome State Fault Refusal :=
  runNext s

/-- `s` with an instruction word as the next action of the schedule, so that the very next step executes
it. `nbits` and `w` are as spec/opcode_table.json numbers them; the word is read under the layout of
`s`, which in `State.reset` is the table's (log 8). Log 6. -/
def State.withFetchWord (s : State) (nbits w : Nat) : State :=
  supplyWord (tableWord nbits w) s

end Sys2Proof.Machine
end

