-- ==== Sys2Proof/WellFormed.lean ====
section
/-!
DEFINITION. When an instruction means something on an implementation: register number 31 is an operand only
where `RT31_IS_ZR` (30_encoding.md R94, 92_eei_decisions.md D6). And when a word layout is one: its fields lie
in the word and apart (30_encoding.md R93).
-/
namespace Sys2Proof

/-- The operand is one the implementation has. -/
def Xt.usable (c : Params) : Xt → Bool
  | .gpr _ => true
  | .r31 => c.rt31IsZr

/-- The register operand of an instruction. -/
def Instr.operand : Instr → Xt
  | .mrsDspsr t => t
  | .msrDspsr t => t

/-- The instruction has a meaning on the implementation `c`. -/
def Instr.wellFormed (c : Params) (i : Instr) : Bool :=
  i.operand.usable c

/-- The fields of a word layout, each by its lowest bit and its width (30_encoding.md R90, R93). -/
def SysregWordLayout.fields (y : SysregWordLayout) : List (Nat × Nat) :=
  [(y.fixedLo, 10), (y.lLo, 1), (y.op0Lo, 2), (y.op1Lo, 3), (y.crnLo, 4), (y.crmLo, 4), (y.op2Lo, 3),
    (y.rtLo, 5)]

/-- Two fields, each by its lowest bit and its width, share no bit. -/
abbrev fieldsApart (f g : Nat × Nat) : Prop :=
  f.1 + f.2 ≤ g.1 ∨ g.1 + g.2 ≤ f.1

/-- Every field lies in the 32 bits of the word, and no two share a bit. The widths add up to 32, so every bit
of the word belongs to a field. -/
structure SysregWordLayout.WellFormed (y : SysregWordLayout) : Prop where
  inWord : ∀ f ∈ y.fields, f.1 + f.2 ≤ 32
  apart  : y.fields.Pairwise fieldsApart

end Sys2Proof
end

