-- ==== Sys2Proof/Safety.lean ====
section
/-!
DEFINITION. What counts as a sound state, and the premise about execution after an exit, in the terms the
claims use.
-/
namespace Sys2Proof.Machine

/-- The bits under the mark `unknown` are zero, so that equal contents are equal data. Log 2. -/
def Held.Canonical {w : Nat} (h : Held w) : Prop :=
  h.unknown = true → h.bits = 0#w

/-- A field that a missing feature leaves out holds no value (10_state.md R70). -/
def Held.PresentIf {w : Nat} (h : Held w) (b : Bool) : Prop :=
  b = false → h = .unk w

/-- Every field of the process state is canonical. -/
structure Pstate.Canonical (p : Pstate) : Prop where
  n     : p.n.Canonical
  z     : p.z.Canonical
  c     : p.c.Canonical
  v     : p.v.Canonical
  q     : p.q.Canonical
  it    : p.it.Canonical
  tco   : p.tco.Canonical
  dit   : p.dit.Canonical
  uao   : p.uao.Canonical
  ssbs  : p.ssbs.Canonical
  pan   : p.pan.Canonical
  ss    : p.ss.Canonical
  il    : p.il.Canonical
  ge    : p.ge.Canonical
  btype : p.btype.Canonical
  e     : p.e.Canonical
  d     : p.d.Canonical
  a     : p.a.Canonical
  i     : p.i.Canonical
  f     : p.f.Canonical
  t     : p.t.Canonical
  nRW   : p.nRW.Canonical
  m     : p.m.Canonical
  el    : p.el.Canonical
  sp    : p.sp.Canonical

/-- The fields of absent features do not exist (10_state.md R70, 40_debug_state_transfer.md R115). -/
structure Pstate.FitsFeatures (c : Params) (p : Pstate) : Prop where
  tco   : p.tco.PresentIf c.haveMte
  dit   : p.dit.PresentIf c.haveDit
  uao   : p.uao.PresentIf c.haveUao
  pan   : p.pan.PresentIf c.havePan
  ssbs  : p.ssbs.PresentIf c.haveSsbs
  btype : p.btype.PresentIf c.haveBti

/-- In AArch64 state the Exception level and stack pointer selection are one of the seven combinations of
10_state.md R67, at an implemented Exception level (00_scope.md R11). -/
def Pstate.LegalAArch64 (c : Params) (p : Pstate) : Prop :=
  p.nRW = .known 0#1 →
    ∃ el sp, p.el = .known el ∧ p.sp = .known sp ∧
      (a64ModeOfBits (el ++ 0#1 ++ sp)).isSome = true ∧
      elSetHas c.implementedEl (elOfBits el) = true

/-- In AArch32 state AArch32 is supported somewhere (10_state.md R66) and the mode is one of the nine of
10_state.md R45, at an implemented Exception level. -/
def Pstate.LegalAArch32 (c : Params) (p : Pstate) : Prop :=
  p.nRW = .known 1#1 →
    c.haveAArch32AnyEl = true ∧
      ∃ m mode, p.m = .known m ∧ a32ModeOfBits m = some mode ∧
        elSetHas c.implementedEl (a32ModeLevel c mode) = true

/-- What every step keeps. -/
structure State.Inv (s : State) : Prop where
  /-- The register, the general registers and `PSTATE` are in canonical form. -/
  dspsrCanonical  : s.dspsr.Canonical
  xCanonical      : ∀ n : Fin 31, s.x[n].Canonical
  pstateCanonical : s.pstate.Canonical
  /-- Under `RAZ_WI` no bit with `Res0Eff` is stored (41_sysreg_access.md R133). -/
  reservedZero    : s.params.res0Policy = .razWi → s.dspsr.bits &&& res0Eff s.params = 0#64
  /-- In Debug state no `PSTATE` field holds a value (40_debug_state_transfer.md R103). -/
  debugNoPstate   : s.halted = true → s.pstate = .unk
  /-- The fields of absent features hold no value. -/
  fitsFeatures    : s.pstate.FitsFeatures s.params
  /-- The mode is a legal one (60_exceptions.md R148). -/
  legalAArch64    : s.pstate.LegalAArch64 s.params
  legalAArch32    : s.pstate.LegalAArch32 s.params

/-- The named premise `ItValidForReturn` of any claim about execution after an exit to AArch32 state
(40_debug_state_transfer.md R112, 92_eei_decisions.md D16). No claim of this package is about such execution.
Log 29. -/
def State.ItValidForReturn (s : State) : Prop :=
  Config.itValid s.drawIndex (slice (readDspsr s) 10 6 ++ slice (readDspsr s) 25 2) = true

end Sys2Proof.Machine
end

