-- ==== Sys2Proof/Certificates/Slice0/Obligations.lean ====
section
/-!
DEFINITION. The statements about the machine, from the rules of spec/. A statement says what the model does;
where it rests on a choice of the model, its docstring names the log entry.
-/

open Sys2Proof Sys2Proof.Machine

namespace Sys2Proof.Claims

/-- The five values of 30_encoding.md R91. -/
def HasTheFiveValues (m : SysregMove) : Prop :=
  m.op0 = 0b11#2 ∧ m.op1 = 0b011#3 ∧ m.crn = 0b0100#4 ∧ m.crm = 0b0101#4 ∧ m.op2 = 0b000#3

/-- The listed values of `M[3:0]` in view A64 (10_state.md R67). -/
def a64Listed : List (BitVec 4) :=
  [0b0000#4, 0b0100#4, 0b0101#4, 0b1000#4, 0b1001#4, 0b1100#4, 0b1101#4]

/-- The listed values of `M[3:0]` in view A32 (10_state.md R45). -/
def a32Listed : List (BitVec 4) :=
  [0b0000#4, 0b0001#4, 0b0010#4, 0b0011#4, 0b0110#4, 0b0111#4, 0b1010#4, 0b1011#4, 0b1111#4]

/-- Debug state is exited to AArch64 state from the register value `d`: bit [4] is 0 or AArch32 is nowhere
supported, and `M[3:0]` is listed and names an implemented Exception level. -/
def ExitsToAArch64 (s : State) (d : Xword) : Prop :=
  (s.params.haveAArch32AnyEl = true → slice d 4 1 = 0#1) ∧ slice d 0 4 ∈ a64Listed ∧
    elSetHas s.params.implementedEl (elOfBits (slice d 2 2)) = true

/-- Debug state is exited to the AArch32 mode `mode` from the register value `d`: bit [4] is 1 where
AArch32 is supported somewhere, and `M[3:0]` names `mode`, of an implemented Exception level. -/
def ExitsToAArch32 (s : State) (d : Xword) (mode : A32Mode) : Prop :=
  s.params.haveAArch32AnyEl = true ∧ slice d 4 1 = 1#1 ∧ a32ModeOfBits (slice d 0 4) = some mode ∧
    elSetHas s.params.implementedEl (a32ModeLevel s.params mode) = true

/-- The bits view A64 marks RES0 on an implementation (10_state.md R46). -/
def res0ViewA64 (c : Params) : Xword :=
  span 32 32 ||| span 26 2 ||| spanIf (!c.haveMte) 25 1 ||| spanIf (!c.haveDit) 24 1 |||
    spanIf (!c.haveUao) 23 1 ||| spanIf (!c.havePan) 22 1 ||| span 13 7 |||
    spanIf (!c.haveSsbs) 12 1 ||| spanIf (!c.haveBti) 10 2 ||| span 5 1 |||
    spanIf (!c.haveAArch32AnyEl) 4 1

/-- The bits view A32 marks RES0 on an implementation (10_state.md R25), but for the conditions of `E`,
which never reach the storage (90_conflicts.md C10). -/
def res0ViewA32 (c : Params) : Xword :=
  span 32 32 ||| spanIf (!c.haveDit) 24 1 ||| spanIf (!c.haveSsbs) 23 1 ||| spanIf (!c.havePan) 22 1

/-- The bits `[lo+w-1 : lo]` are a read/write field: what `MSR` writes there, `MRS` reads back. -/
def ReadWriteField (lo w : Nat) : Prop :=
  ∀ (s : State) (n m : Fin 31) (v : Xword), s.halted = true → s.x[n] = .known v →
    ∃ t u r, exec (.msrDspsr (.gpr n)) s = .next t ∧ exec (.mrsDspsr (.gpr m)) t = .next u ∧
      u.x[m] = .known r ∧ slice r lo w = slice v lo w

/-- The bits `[lo+w-1 : lo]` are set to the `PSTATE` field `get` on entering Debug state from AArch64
state. -/
def SetOnEntry (lo : Nat) {w : Nat} (get : Pstate → Held w) : Prop :=
  ∀ s : State, s.halted = false → heldValue s.pstate.nRW s.drawIndex 4 = 0#1 →
    ∃ t v, debugEntry s = .next t ∧ t.dspsr = .known v ∧
      slice v lo w = heldValue (get s.pstate) s.drawIndex lo

/-- The bits `[lo+w-1 : lo]` are copied to the `PSTATE` field `get` on exiting Debug state to AArch64
state. -/
def CopiedOnExitToAArch64 (lo : Nat) {w : Nat} (get : Pstate → Held w) : Prop :=
  ∀ (s : State) (ssCopy : Bool), s.halted = true → ExitsToAArch64 s (readDspsr s) →
    ∃ t, debugExit ssCopy false s = .next t ∧ get t.pstate = .known (slice (readDspsr s) lo w)

/-- The bits `[lo+w-1 : lo]` are copied to the `PSTATE` field `get` on exiting Debug state to AArch32
state. -/
def CopiedOnExitToAArch32 (lo : Nat) {w : Nat} (get : Pstate → Held w) : Prop :=
  ∀ (s : State) (ssCopy : Bool) (mode : A32Mode), s.halted = true →
    ExitsToAArch32 s (readDspsr s) mode →
    ∃ t, debugExit ssCopy false s = .next t ∧ get t.pstate = .known (slice (readDspsr s) lo w)

/-- The register resets to an UNKNOWN value: after the event it holds no value, and a read of it in Debug
state gives a free value, in which a write would store every bit of the field `[lo+w-1 : lo]`. -/
def ResetsToUnknown (lo w : Nat) : Prop :=
  ∀ s : State, ∃ t, resetEvent s = .next t ∧ t.dspsr.unknown = true ∧
    slice (readDspsr t) lo w = slice (Config.freeBits 64 t.drawIndex 0) lo w

/-- An outcome of Debug state exit with the value `d` in the register: in the state it leaves, and in what
an illegal return event carries. Nothing else of the outcome changes. -/
def withRegister (d : Xword) :
    Host.Outcome State Fault Refusal → Host.Outcome State Fault Refusal
  | .next t => .next { t with dspsr := .known d }
  | .fault (.illegalReturn _ left) => .fault (.illegalReturn d { left with dspsr := .known d })
  | .fault .undefined => .fault .undefined
  | .refused r => .refused r

/-- Entry from AArch64 state sets the bits `[lo+w-1 : lo]` to the value the `PSTATE` field `get` holds. -/
def TakesTheHeldValue (lo : Nat) {w : Nat} (get : Pstate → Held w) : Prop :=
  ∀ (s : State) (v : BitVec w), s.halted = false → s.pstate.nRW = .known 0#1 →
    get s.pstate = .known v →
    ∃ t d, debugEntry s = .next t ∧ t.dspsr = .known d ∧ slice d lo w = v

/-- An exit to the Execution state `nRW` copies the bits `[lo+w-1 : lo]` of the register value to the
`PSTATE` field `get`. -/
def GivesTheFieldItsBits (nRW : BitVec 1) (lo : Nat) {w : Nat} (get : Pstate → Held w) : Prop :=
  ∀ (s t : State) (d : Xword) (p q : Bool), s.dspsr = .known d → debugExit p q s = .next t →
    t.pstate.nRW = .known nRW → get t.pstate = .known (slice d lo w)

/-- The bits `[lo+w-1 : lo]` are written by `MSR` and read by `MRS`. -/
def WrittenAndRead (lo w : Nat) : Prop :=
  (∀ (s : State) (n : Fin 31) (v : Xword), s.halted = true → s.x[n] = .known v →
    ∃ t d, exec (.msrDspsr (.gpr n)) s = .next t ∧ t.dspsr = .known d ∧ slice d lo w = slice v lo w) ∧
  (∀ (s : State) (n : Fin 31) (d : Xword), s.halted = true → s.dspsr = .known d →
    ∃ t r, exec (.mrsDspsr (.gpr n)) s = .next t ∧ t.x[n] = .known r ∧ slice r lo w = slice d lo w)

/-- Reset leaves the register UNKNOWN. -/
def UnknownAfterReset : Prop :=
  ∀ s : State, ∃ t, resetEvent s = .next t ∧ t.dspsr.unknown = true

/-- A field of view A64 that every implementation has: set on entry, copied on exit, read/write, reset to an
UNKNOWN value. -/
def FieldOfViewA64 (lo : Nat) {w : Nat} (get : Pstate → Held w) : Prop :=
  SetOnEntry lo get ∧ CopiedOnExitToAArch64 lo get ∧ ReadWriteField lo w ∧ ResetsToUnknown lo w

/-- A field of view A32 that every implementation has: copied on exit, read/write, reset to an UNKNOWN
value. -/
def FieldOfViewA32 (lo : Nat) {w : Nat} (get : Pstate → Held w) : Prop :=
  CopiedOnExitToAArch32 lo get ∧ ReadWriteField lo w ∧ ResetsToUnknown lo w

end Sys2Proof.Claims

open Sys2Proof.Claims

/-! ### Encoding -/

/-- Words written out from 30_encoding.md R93 and 95_test_vectors.md section 2.7. The word layout is general
knowledge (log 8): it is the default of the parameter `SYSREG_WORD_LAYOUT`. -/
def Obligations.WordsOfTheTableDecode : Prop :=
  let y := Config.sysregWordLayoutDefault
  decode y 0xD53B4500#32 = .ok (.mrsDspsr (.gpr 0)) ∧
  decode y 0xD53B451E#32 = .ok (.mrsDspsr (.gpr 30)) ∧
  decode y 0xD53B451F#32 = .ok (.mrsDspsr .r31) ∧
  decode y 0xD51B4501#32 = .ok (.msrDspsr (.gpr 1)) ∧
  decode y 0xD51B451F#32 = .ok (.msrDspsr .r31) ∧
  decode y 0xD53B4520#32 = .error .notInThisSpec ∧
  decode y 0xD53B4400#32 = .error .notInThisSpec ∧
  decode y 0xD5334500#32 = .error .notInThisSpec ∧
  decode y 0xD53A4500#32 = .error .notInThisSpec ∧
  decode y 0xD503201F#32 = .error .notInThisSpec ∧
  decode y 0x00000000#32 = .error .notInThisSpec

/-- Decoding the encoding of an instruction gives it back, for both instructions and every operand,
under every well-formed word layout (30_encoding.md R93, 92_eei_decisions.md D10; log 8). -/
def Obligations.DecodeOfEncode : Prop :=
  ∀ (y : SysregWordLayout) (i : Instr), y.WellFormed → decode y (encode y i) = .ok i

/-- A word that decodes is the encoding of what it decodes to, so under every well-formed word
layout the decoder accepts the words of the two instructions and no other (30_encoding.md R95; log 8). -/
def Obligations.EncodeOfDecode : Prop :=
  ∀ (y : SysregWordLayout) (w : Iword) (i : Instr), y.WellFormed → decode y w = .ok i → encode y i = w

/-- 30_encoding.md R91: a System register move reaches the register exactly when its five fields have the
five values, and these are the values of the read and of the write alike, whatever the operand. -/
def Obligations.FiveFieldsSelectTheRegister : Prop :=
  (∀ m : SysregMove, HasTheFiveValues m ↔ ∃ i, instrOfMove m = .ok i) ∧
  (∀ t : Xt, HasTheFiveValues (moveOfInstr (.mrsDspsr t)) ∧ HasTheFiveValues (moveOfInstr (.msrDspsr t)))

/-! ### One step -/

/-- Where the PE's next action is a word that decodes to an instruction the implementation has, a step is
that instruction's effect on the state with the action taken off the schedule. The schedule is the model's
(log 6). -/
def Obligations.StepRunsTheDecodedInstruction : Prop :=
  ∀ (s : State) (w : Iword) (rest : List Action) (i : Instr),
    s.schedule = .word w :: rest → decode s.params.sysregWordLayout w = .ok i →
      i.wellFormed s.params = true →
      step s = exec i { s with schedule := rest }

/-- A word supplied by the host is the very next one executed, read under the word layout of the state
(log 6, log 8). -/
def Obligations.SuppliedWordRunsNext : Prop :=
  ∀ (s : State) (i : Instr), s.params.sysregWordLayout.WellFormed →
    step (s.withFetchWord 32 (encode s.params.sysregWordLayout i).toNat) = exec i s

/-- Any other word is refused by name: no no-operation and no Undefined (30_encoding.md R95). -/
def Obligations.StepRefusesOtherWords : Prop :=
  ∀ (s : State) (w : Iword) (rest : List Action),
    s.params.sysregWordLayout.WellFormed → s.schedule = .word w :: rest →
      (∀ i : Instr, encode s.params.sysregWordLayout i ≠ w) →
      step s = .refused .notInThisSpec

/-- A step of the environment is its event on the state with the action taken off the schedule, and a step
with an empty schedule changes nothing (log 6). -/
def Obligations.StepRunsTheEvents : Prop :=
  ∀ s : State,
    (s.schedule = [] → step s = .next s) ∧
    ∀ rest : List Action,
      (s.schedule = .debugEntry :: rest → step s = debugEntry { s with schedule := rest }) ∧
      (∀ p q, s.schedule = .debugExit p q :: rest →
        step s = debugExit p q { s with schedule := rest }) ∧
      (s.schedule = .reset :: rest → step s = resetEvent { s with schedule := rest }) ∧
      (∀ n v, s.schedule = .setX n v :: rest →
        step s = .next { s with schedule := rest, x := s.x.set n.val (.known v) n.isLt,
                                drawIndex := s.drawIndex + 1 })

/-! ### The two instructions -/

/-- In Debug state `MRS <Xt>, DSPSR_EL0` puts all 64 bits the register holds into `x[n]` and changes nothing
else (41_sysreg_access.md R131, by 92_eei_decisions.md D27). -/
def Obligations.MrsDeliversTheRegister : Prop :=
  ∀ (s : State) (n : Fin 31) (v : Xword), s.halted = true → s.dspsr = .known v →
    exec (.mrsDspsr (.gpr n)) s =
      .next { s with x := s.x.set n.val (.known v) n.isLt, drawIndex := s.drawIndex + 1 }

/-- A read of the register before anything has written it gives a free value, the next read another free
value, and the register still holds no value (10_state.md R75, 92_eei_decisions.md D4; log 1, log 31). Where
`RES0_POLICY = RAZ_WI` the bits with `Res0Eff` read as zero. -/
def Obligations.MrsOfUnknownRegisterIsFree : Prop :=
  ∀ (s : State) (n m : Fin 31), n ≠ m → s.halted = true → s.dspsr.unknown = true →
    ∃ t u, exec (.mrsDspsr (.gpr n)) s = .next t ∧ exec (.mrsDspsr (.gpr m)) t = .next u ∧
      u.x[n] = .known (writeMask s.params (Config.freeBits 64 s.drawIndex 0)) ∧
      u.x[m] = .known (writeMask s.params (Config.freeBits 64 (s.drawIndex + 1) 0)) ∧
      u.dspsr = s.dspsr

/-- `MRS XZR, DSPSR_EL0` reads the register and discards the value (30_encoding.md R94, general knowledge:
log 9). -/
def Obligations.MrsToRegister31Discards : Prop :=
  ∀ s : State, s.halted = true → s.params.rt31IsZr = true →
    exec (.mrsDspsr .r31) s = .next { s with drawIndex := s.drawIndex + 1 }

/-- In Debug state `MSR DSPSR_EL0, <Xt>` replaces the register by `WriteMask(x[n])`, whatever the 64 bits
are, and changes nothing else (41_sysreg_access.md R132, by 92_eei_decisions.md D26). -/
def Obligations.MsrWritesTheRegister : Prop :=
  ∀ (s : State) (n : Fin 31) (v : Xword), s.halted = true → s.x[n] = .known v →
    exec (.msrDspsr (.gpr n)) s =
      .next { s with dspsr := .known (writeMask s.params v), drawIndex := s.drawIndex + 1 }

/-- From a general register that holds no value `MSR` writes a free value; the general register still holds
no value (70_reset_and_hazards.md R161, 92_eei_decisions.md D4; log 1). -/
def Obligations.MsrFromUnknownRegisterIsFree : Prop :=
  ∀ (s : State) (n : Fin 31), s.halted = true → s.x[n].unknown = true →
    exec (.msrDspsr (.gpr n)) s =
      .next { s with dspsr := .known (writeMask s.params (Config.freeBits 64 s.drawIndex 0)),
                     drawIndex := s.drawIndex + 1 }

/-- `MSR DSPSR_EL0, XZR` writes 64 zero bits (30_encoding.md R94, general knowledge: log 9). -/
def Obligations.MsrFromRegister31WritesZero : Prop :=
  ∀ s : State, s.halted = true → s.params.rt31IsZr = true →
    exec (.msrDspsr .r31) s =
      .next { s with dspsr := .known 0#64, drawIndex := s.drawIndex + 1 }

/-- Outside Debug state, and only there, both instructions are `Undefined`, for every operand
(60_exceptions.md R140; the guard before the operand: log 9). The outcome carries no state: nothing is
written. -/
def Obligations.AccessIsUndefinedExactlyOutsideDebugState : Prop :=
  ∀ (i : Instr) (s : State), exec i s = .fault .undefined ↔ s.halted = false

/-- In Debug state an instruction is refused by name exactly where its operand is register number 31 and
`RT31_IS_ZR` is false (30_encoding.md R94; log 9). -/
def Obligations.Register31IsRefusedExactlyWithoutZr : Prop :=
  ∀ (i : Instr) (s : State), s.halted = true →
    (exec i s = .refused .register31NotZr ↔ i.operand = .r31 ∧ s.params.rt31IsZr = false)

/-- In Debug state both instructions complete in every `PSTATE`, so at every Exception level, and what they
do does not depend on `PSTATE`; in Non-debug state both are `Undefined` in every `PSTATE`
(41_sysreg_access.md R134, by 92_eei_decisions.md D28). -/
def Obligations.AccessDoesNotDependOnPstate : Prop :=
  ∀ (i : Instr) (s : State) (p q : Pstate), i.wellFormed s.params = true →
    (s.halted = true → ∃ t : State, exec i { s with pstate := p } = .next { t with pstate := p } ∧
      exec i { s with pstate := q } = .next { t with pstate := q }) ∧
    (s.halted = false → exec i { s with pstate := p } = .fault .undefined)

/-- What `MRS <Xt>, DSPSR_EL0` leaves unchanged: every general register but its destination, the register,
every field of `PSTATE`, `halted`, the parameters and the schedule (41_sysreg_access.md R135). -/
def Obligations.MrsFrame : Prop :=
  ∀ (r : Xt) (s t : State), exec (.mrsDspsr r) s = .next t →
    (∀ n : Fin 31, r ≠ .gpr n → t.x[n] = s.x[n]) ∧ t.dspsr = s.dspsr ∧ t.pstate = s.pstate ∧
      t.halted = s.halted ∧ t.params = s.params ∧ t.schedule = s.schedule

/-- What `MSR DSPSR_EL0, <Xt>` leaves unchanged: every general register, every field of `PSTATE`, `halted`,
the parameters and the schedule (41_sysreg_access.md R132, R135). -/
def Obligations.MsrFrame : Prop :=
  ∀ (r : Xt) (s t : State), exec (.msrDspsr r) s = .next t →
    t.x = s.x ∧ t.pstate = s.pstate ∧ t.halted = s.halted ∧ t.params = s.params ∧
      t.schedule = s.schedule

/-- An `MRS` returns the value left by the `MSR` before it, with no synchronising instruction between
(20_memory.md R86, by 92_eei_decisions.md D22; log 24). -/
def Obligations.ReadReturnsTheLatestWrite : Prop :=
  ∀ (s : State) (n m : Fin 31) (v : Xword), s.halted = true → s.x[n] = .known v →
    ∃ t u, exec (.msrDspsr (.gpr n)) s = .next t ∧ exec (.mrsDspsr (.gpr m)) t = .next u ∧
      u.x[m] = .known (writeMask s.params v)

/-- An `MRS` returns the value left by the Debug state entry before it, whatever the register held
(20_memory.md R86, 70_reset_and_hazards.md R162; log 24). -/
def Obligations.ReadReturnsTheEntryValue : Prop :=
  ∀ (s : State) (m : Fin 31), s.halted = false → heldValue s.pstate.nRW s.drawIndex 4 = 0#1 →
    ∃ t u v, debugEntry s = .next t ∧ t.dspsr = .known v ∧
      exec (.mrsDspsr (.gpr m)) t = .next u ∧ u.x[m] = .known v

/-- Two reads with no write between return the same value once the register has been written, and leave the
register as it was (41_sysreg_access.md R131 corner case (a), 20_memory.md R83). -/
def Obligations.ReadsAreIdempotent : Prop :=
  ∀ (s : State) (n m : Fin 31) (v : Xword), n ≠ m → s.halted = true → s.dspsr = .known v →
    ∃ t u, exec (.mrsDspsr (.gpr n)) s = .next t ∧ exec (.mrsDspsr (.gpr m)) t = .next u ∧
      u.x[n] = .known v ∧ u.x[m] = .known v ∧ u.dspsr = s.dspsr

/-! ### Reserved bits -/

/-- `WriteMask` under the two policies, bit by bit (41_sysreg_access.md R133, by 92_eei_decisions.md D3). -/
def Obligations.WriteMaskUnderTheTwoPolicies : Prop :=
  ∀ (c : Params) (v : Xword) (i : Nat), i < 64 →
    (writeMask c v).getLsbD i =
      match c.res0Policy with
      | .razWi => v.getLsbD i && !(res0Eff c).getLsbD i
      | .stored => v.getLsbD i

/-- A bit has `Res0Eff` exactly when it is RES0 in every view that can apply on the implementation
(10_state.md R69). -/
def Obligations.Res0EffIsReservedInEveryApplicableView : Prop :=
  ∀ c : Params,
    res0Eff c = res0ViewA64 c &&& (if c.haveAArch32AnyEl then res0ViewA32 c else BitVec.allOnes 64)

/-- Bit [9] is stored on every implementation under either policy (90_conflicts.md C10,
41_sysreg_access.md R133). -/
def Obligations.BitNineIsAlwaysStored : Prop :=
  ∀ (c : Params) (v : Xword), slice (writeMask c v) 9 1 = slice v 9 1

/-- Software that writes zero to RES0 bits and reads them back sees zero, under either policy
(41_sysreg_access.md R133). -/
def Obligations.ZeroWrittenToReservedBitsReadsZero : Prop :=
  ∀ (s : State) (n m : Fin 31) (v : Xword), s.halted = true → s.x[n] = .known v →
    v &&& res0Eff s.params = 0#64 →
    ∃ t u r, exec (.msrDspsr (.gpr n)) s = .next t ∧ exec (.mrsDspsr (.gpr m)) t = .next u ∧
      u.x[m] = .known r ∧ r &&& res0Eff s.params = 0#64

/-! ### Debug state entry -/

/-- Debug state entry from AArch64 state writes the whole register in view A64, zero in every bit that view
marks RES0 (40_debug_state_transfer.md R101; the zeros by 92_eei_decisions.md D3, log 12), enters Debug
state, and leaves `PSTATE` without a value (R103, log 15); nothing else changes. -/
def Obligations.EntryFromAArch64WritesViewA64 : Prop :=
  ∀ s : State, s.halted = false → heldValue s.pstate.nRW s.drawIndex 4 = 0#1 →
    ∃ v : Xword,
      debugEntry s = .next { s with dspsr := .known v, pstate := .unk, halted := true,
                                    drawIndex := s.drawIndex + 1 } ∧
      slice v 32 32 = 0#32 ∧
      slice v 31 1 = heldValue s.pstate.n s.drawIndex 31 ∧
      slice v 30 1 = heldValue s.pstate.z s.drawIndex 30 ∧
      slice v 29 1 = heldValue s.pstate.c s.drawIndex 29 ∧
      slice v 28 1 = heldValue s.pstate.v s.drawIndex 28 ∧
      slice v 26 2 = 0#2 ∧
      slice v 25 1 = (if s.params.haveMte then heldValue s.pstate.tco s.drawIndex 25 else 0#1) ∧
      slice v 24 1 = (if s.params.haveDit then heldValue s.pstate.dit s.drawIndex 24 else 0#1) ∧
      slice v 23 1 = (if s.params.haveUao then heldValue s.pstate.uao s.drawIndex 23 else 0#1) ∧
      slice v 22 1 = (if s.params.havePan then heldValue s.pstate.pan s.drawIndex 22 else 0#1) ∧
      slice v 21 1 = heldValue s.pstate.ss s.drawIndex 21 ∧
      slice v 20 1 = heldValue s.pstate.il s.drawIndex 20 ∧
      slice v 13 7 = 0#7 ∧
      slice v 12 1 = (if s.params.haveSsbs then heldValue s.pstate.ssbs s.drawIndex 12 else 0#1) ∧
      slice v 10 2 = (if s.params.haveBti then heldValue s.pstate.btype s.drawIndex 10 else 0#2) ∧
      slice v 9 1 = heldValue s.pstate.d s.drawIndex 9 ∧
      slice v 8 1 = heldValue s.pstate.a s.drawIndex 8 ∧
      slice v 7 1 = heldValue s.pstate.i s.drawIndex 7 ∧
      slice v 6 1 = heldValue s.pstate.f s.drawIndex 6 ∧
      slice v 5 1 = 0#1 ∧
      slice v 4 1 = 0#1 ∧
      slice v 2 2 = heldValue s.pstate.el s.drawIndex 2 ∧
      slice v 1 1 = 0#1 ∧
      slice v 0 1 = heldValue s.pstate.sp s.drawIndex 0

/-- Debug state entry is not enabled in Debug state, so there is no nesting (40_debug_state_transfer.md R100,
60_exceptions.md R146; log 21), and from AArch32 state it is refused by name (R102; log 19). -/
def Obligations.EntryIsRefusedWhereItHasNoMeaning : Prop :=
  ∀ s : State,
    (s.halted = true → debugEntry s = .refused .debugEntryNotEnabled) ∧
    (s.halted = false → heldValue s.pstate.nRW s.drawIndex 4 = 1#1 →
      debugEntry s = .refused .entryFromAArch32NotInSource)

/-! ### Debug state exit -/

/-- An exit to AArch64 state copies view A64 to `PSTATE` (40_debug_state_transfer.md R107); `SS` is copied
under `SS_COPY_CONDITION` and holds no value otherwise (R111, by 92_eei_decisions.md D13, log 7, log 16); a
field whose feature is absent and a field the view does not name holds no value (R115, R109, log 15, log 26);
the register is kept (R110). `OTHER_ILLEGAL_RETURN` is false (R116, log 7). -/
def Obligations.ExitToAArch64CopiesViewA64 : Prop :=
  ∀ (s : State) (ssCopy : Bool) (d : Xword), s.halted = true → readDspsr s = d →
    ExitsToAArch64 s d →
    ∃ t, debugExit ssCopy false s = .next t ∧
      t.pstate.n = .known (slice d 31 1) ∧
      t.pstate.z = .known (slice d 30 1) ∧
      t.pstate.c = .known (slice d 29 1) ∧
      t.pstate.v = .known (slice d 28 1) ∧
      t.pstate.tco = (if s.params.haveMte then .known (slice d 25 1) else .unk 1) ∧
      t.pstate.dit = (if s.params.haveDit then .known (slice d 24 1) else .unk 1) ∧
      t.pstate.uao = (if s.params.haveUao then .known (slice d 23 1) else .unk 1) ∧
      t.pstate.pan = (if s.params.havePan then .known (slice d 22 1) else .unk 1) ∧
      t.pstate.ss = (if ssCopy then .known (slice d 21 1) else .unk 1) ∧
      t.pstate.il = .known (slice d 20 1) ∧
      t.pstate.ssbs = (if s.params.haveSsbs then .known (slice d 12 1) else .unk 1) ∧
      t.pstate.btype = (if s.params.haveBti then .known (slice d 10 2) else .unk 2) ∧
      t.pstate.d = .known (slice d 9 1) ∧
      t.pstate.a = .known (slice d 8 1) ∧
      t.pstate.i = .known (slice d 7 1) ∧
      t.pstate.f = .known (slice d 6 1) ∧
      t.pstate.nRW = .known 0#1 ∧
      t.pstate.el = .known (slice d 2 2) ∧
      t.pstate.sp = .known (slice d 0 1) ∧
      t.pstate.q = .unk 1 ∧ t.pstate.it = .unk 8 ∧ t.pstate.ge = .unk 4 ∧ t.pstate.e = .unk 1 ∧
      t.pstate.t = .unk 1 ∧ t.pstate.m = .unk 4 ∧
      t = { s with halted := false, pstate := t.pstate, drawIndex := s.drawIndex + 1 }

/-- An exit to AArch32 state copies view A32 to `PSTATE` (40_debug_state_transfer.md R108), with `IT` put
together from its two parts and `SS` without a condition (R111, log 16); a field whose feature is absent and
a field the view does not name holds no value (R115, R109, log 15, log 26); the register is kept (R110). What
reaches `E` is the statement about `EffE`. `OTHER_ILLEGAL_RETURN` is false (R116, log 7). -/
def Obligations.ExitToAArch32CopiesViewA32 : Prop :=
  ∀ (s : State) (ssCopy : Bool) (d : Xword) (mode : A32Mode), s.halted = true → readDspsr s = d →
    ExitsToAArch32 s d mode →
    ∃ t, debugExit ssCopy false s = .next t ∧
      t.pstate.n = .known (slice d 31 1) ∧
      t.pstate.z = .known (slice d 30 1) ∧
      t.pstate.c = .known (slice d 29 1) ∧
      t.pstate.v = .known (slice d 28 1) ∧
      t.pstate.q = .known (slice d 27 1) ∧
      t.pstate.it = .known (slice d 10 6 ++ slice d 25 2) ∧
      t.pstate.dit = (if s.params.haveDit then .known (slice d 24 1) else .unk 1) ∧
      t.pstate.ssbs = (if s.params.haveSsbs then .known (slice d 23 1) else .unk 1) ∧
      t.pstate.pan = (if s.params.havePan then .known (slice d 22 1) else .unk 1) ∧
      t.pstate.ss = .known (slice d 21 1) ∧
      t.pstate.il = .known (slice d 20 1) ∧
      t.pstate.ge = .known (slice d 16 4) ∧
      t.pstate.e.unknown = false ∧
      t.pstate.a = .known (slice d 8 1) ∧
      t.pstate.i = .known (slice d 7 1) ∧
      t.pstate.f = .known (slice d 6 1) ∧
      t.pstate.t = .known (slice d 5 1) ∧
      t.pstate.nRW = .known 1#1 ∧
      t.pstate.m = .known (slice d 0 4) ∧
      t.pstate.tco = .unk 1 ∧ t.pstate.uao = .unk 1 ∧ t.pstate.btype = .unk 2 ∧
      t.pstate.d = .unk 1 ∧ t.pstate.el = .unk 2 ∧ t.pstate.sp = .unk 1 ∧
      t = { s with halted := false, pstate := t.pstate, drawIndex := s.drawIndex + 1 }

/-- What reaches `PSTATE.E` at an exit to AArch32 state (40_debug_state_transfer.md R113, by
92_eei_decisions.md D17, log 22): 0 where big-endian operation is supported nowhere or not at the level
returned to, else 1 where little-endian is not, else bit [9]. -/
def Obligations.ExitForcesEndianness : Prop :=
  ∀ (s t : State) (ssCopy other : Bool) (mode : A32Mode),
    ExitsToAArch32 s (readDspsr s) mode → debugExit ssCopy other s = .next t →
    t.pstate.e = .known
      (if elSetHas s.params.beSupportedAt (a32ModeLevel s.params mode) = false then 0#1
       else if elSetHas s.params.leSupportedAt (a32ModeLevel s.params mode) = false then 1#1
       else slice (readDspsr s) 9 1)

/-- The illegal return condition, exactly, and what the event leaves (40_debug_state_transfer.md R116,
60_exceptions.md R141, by 92_eei_decisions.md D12; log 7, log 17). -/
def Obligations.IllegalReturnExactly : Prop :=
  ∀ (s : State) (ssCopy other : Bool), s.halted = true →
    let d := readDspsr s
    let aarch64 := s.params.haveAArch32AnyEl = true → slice d 4 1 = 0#1
    let illegal :=
      (aarch64 ∧
        (slice d 0 4 ∉ a64Listed ∨ elSetHas s.params.implementedEl (elOfBits (slice d 2 2)) = false)) ∨
      (¬ aarch64 ∧
        (slice d 0 4 ∉ a32Listed ∨
          ∃ mode, a32ModeOfBits (slice d 0 4) = some mode ∧
            elSetHas s.params.implementedEl (a32ModeLevel s.params mode) = false)) ∨
      other = true
    (illegal → debugExit ssCopy other s =
      .fault (.illegalReturn d
        { s with halted := false, pstate := .unk, drawIndex := s.drawIndex + 1 })) ∧
    (¬ illegal → ∃ t, debugExit ssCopy other s = .next t)

/-- Debug state exit is not enabled outside Debug state (40_debug_state_transfer.md R105; log 21). -/
def Obligations.ExitIsNotEnabledOutsideDebugState : Prop :=
  ∀ (s : State) (p q : Bool), s.halted = false →
    debugExit p q s = .refused .debugExitNotEnabled

/-- Where AArch32 is supported at no Exception level, bit [4] has no effect on the exit
(40_debug_state_transfer.md R114, by 92_eei_decisions.md D23; log 14). Whatever the outcome (a completed exit,
an illegal return event, a refusal), it is with either value of bit [4] what it is with the other, the
register itself apart; and a completed exit is to AArch64 state. -/
def Obligations.BitFourHasNoEffectWithoutAArch32 : Prop :=
  ∀ (s : State) (d : Xword) (b b' : BitVec 1) (p q : Bool), s.params.haveAArch32AnyEl = false →
    debugExit p q { s with dspsr := .known (put 4 b' d) } =
      withRegister (put 4 b' d) (debugExit p q { s with dspsr := .known (put 4 b d) }) ∧
    ∀ t, debugExit p q { s with dspsr := .known (put 4 b d) } = .next t →
      t.pstate.nRW = .known 0#1

/-- A conditional field whose feature is absent takes no part in either transfer: entry writes 0 to it, and
exit gives its `PSTATE` field no value, to either Execution state (40_debug_state_transfer.md R115; the
absent field of `PSTATE` is one that never holds a value, log 26). -/
def Obligations.AbsentFeaturesTakeNoPart : Prop :=
  ∀ (s t : State) (p q : Bool),
    (debugEntry s = .next t →
      (s.params.haveMte = false → slice t.dspsr.bits 25 1 = 0#1) ∧
      (s.params.haveDit = false → slice t.dspsr.bits 24 1 = 0#1) ∧
      (s.params.haveUao = false → slice t.dspsr.bits 23 1 = 0#1) ∧
      (s.params.havePan = false → slice t.dspsr.bits 22 1 = 0#1) ∧
      (s.params.haveSsbs = false → slice t.dspsr.bits 12 1 = 0#1) ∧
      (s.params.haveBti = false → slice t.dspsr.bits 10 2 = 0#2)) ∧
    (debugExit p q s = .next t →
      (s.params.haveMte = false → t.pstate.tco = .unk 1) ∧
      (s.params.haveDit = false → t.pstate.dit = .unk 1) ∧
      (s.params.haveUao = false → t.pstate.uao = .unk 1) ∧
      (s.params.havePan = false → t.pstate.pan = .unk 1) ∧
      (s.params.haveSsbs = false → t.pstate.ssbs = .unk 1) ∧
      (s.params.haveBti = false → t.pstate.btype = .unk 2))

/-- A 1 in a bit that view A64 marks RES0 has no effect on an exit to AArch64 state
(40_debug_state_transfer.md R107 corner case (b)): two register values that agree outside those bits, with
bit [4] clear, give the same `PSTATE`. -/
def Obligations.ReservedBitsDoNotReachPstate : Prop :=
  ∀ (s t : State) (d d' : Xword) (p q : Bool),
    d &&& ~~~(res0ViewA64 s.params) = d' &&& ~~~(res0ViewA64 s.params) →
    slice d 4 1 = 0#1 → slice d' 4 1 = 0#1 →
    debugExit p q { s with dspsr := .known d } = .next t →
    debugExit p q { s with dspsr := .known d' } = .next { t with dspsr := .known d' }

/-- Debug state exit changes `PSTATE`, `halted` and the model's draw counter and nothing else: the register,
the general registers, the parameters and the schedule stay (40_debug_state_transfer.md R110, R119). -/
def Obligations.ExitFrame : Prop :=
  ∀ (s t : State) (p q : Bool), debugExit p q s = .next t →
    t = { s with halted := false, pstate := t.pstate, drawIndex := s.drawIndex + 1 }

/-- Debug state entry changes the register, `PSTATE`, `halted` and the model's draw counter and nothing else
(40_debug_state_transfer.md R100, R103). -/
def Obligations.EntryFrame : Prop :=
  ∀ s t : State, debugEntry s = .next t →
    t = { s with dspsr := t.dspsr, pstate := .unk, halted := true, drawIndex := s.drawIndex + 1 }

/-- Round trip: an entry from AArch64 state followed by an exit with no write between returns to AArch64
state with every `PSTATE` field of view A64 as it was, `SS` under `SS_COPY_CONDITION`
(40_debug_state_transfer.md R118; log 7, log 14, log 15, log 16). A field that held no value at the entry has
after the exit the free value the entry drew for it (log 1, log 31). -/
def Obligations.EntryThenExitRestoresPstate : Prop :=
  ∀ (s : State) (ssCopy : Bool), s.halted = false → heldValue s.pstate.nRW s.drawIndex 4 = 0#1 →
    elSetHas s.params.implementedEl (elOfBits (heldValue s.pstate.el s.drawIndex 2)) = true →
    ¬ (heldValue s.pstate.el s.drawIndex 2 = 0#2 ∧ heldValue s.pstate.sp s.drawIndex 0 = 1#1) →
    ∃ e t, debugEntry s = .next e ∧ debugExit ssCopy false e = .next t ∧ t.halted = false ∧
      t.pstate.n = .known (heldValue s.pstate.n s.drawIndex 31) ∧
      t.pstate.z = .known (heldValue s.pstate.z s.drawIndex 30) ∧
      t.pstate.c = .known (heldValue s.pstate.c s.drawIndex 29) ∧
      t.pstate.v = .known (heldValue s.pstate.v s.drawIndex 28) ∧
      (s.params.haveMte = true → t.pstate.tco = .known (heldValue s.pstate.tco s.drawIndex 25)) ∧
      (s.params.haveDit = true → t.pstate.dit = .known (heldValue s.pstate.dit s.drawIndex 24)) ∧
      (s.params.haveUao = true → t.pstate.uao = .known (heldValue s.pstate.uao s.drawIndex 23)) ∧
      (s.params.havePan = true → t.pstate.pan = .known (heldValue s.pstate.pan s.drawIndex 22)) ∧
      (ssCopy = true → t.pstate.ss = .known (heldValue s.pstate.ss s.drawIndex 21)) ∧
      t.pstate.il = .known (heldValue s.pstate.il s.drawIndex 20) ∧
      (s.params.haveSsbs = true → t.pstate.ssbs = .known (heldValue s.pstate.ssbs s.drawIndex 12)) ∧
      (s.params.haveBti = true → t.pstate.btype = .known (heldValue s.pstate.btype s.drawIndex 10)) ∧
      t.pstate.d = .known (heldValue s.pstate.d s.drawIndex 9) ∧
      t.pstate.a = .known (heldValue s.pstate.a s.drawIndex 8) ∧
      t.pstate.i = .known (heldValue s.pstate.i s.drawIndex 7) ∧
      t.pstate.f = .known (heldValue s.pstate.f s.drawIndex 6) ∧
      t.pstate.nRW = .known 0#1 ∧
      t.pstate.el = .known (heldValue s.pstate.el s.drawIndex 2) ∧
      t.pstate.sp = .known (heldValue s.pstate.sp s.drawIndex 0)

/-- In a state that meets the invariant, an entry from known AArch64 state followed by an exit without a
write between is never an illegal return event, unless `OTHER_ILLEGAL_RETURN` makes it one
(70_reset_and_hazards.md R163, 40_debug_state_transfer.md R118; log 7, log 14). A field that held no value saves
a free value (log 1, log 31). -/
def Obligations.UntouchedRegisterExitsLegally : Prop :=
  ∀ (s : State) (ssCopy : Bool), s.Inv → s.halted = false → s.pstate.nRW = .known 0#1 →
    ∃ e t, debugEntry s = .next e ∧ debugExit ssCopy false e = .next t

/-! ### Fields, rule by rule -/

/-- The condition flags in view A64 (10_state.md R47 to R50). The model's choices in it: after the event Reset
(log 32) a read is the free value of the counter of draws (92_eei_decisions.md D4; log 1, log 31); a field of
`PSTATE` that holds no value saves a free value (log 1, log 31); the exits are those bit [4] selects (log 14)
with `OTHER_ILLEGAL_RETURN` false (log 7). -/
def Obligations.ConditionFlagsInViewA64 : Prop :=
  FieldOfViewA64 31 Pstate.n ∧ FieldOfViewA64 30 Pstate.z ∧ FieldOfViewA64 29 Pstate.c ∧
    FieldOfViewA64 28 Pstate.v

/-- `IL` and the interrupt masks in view A64 (10_state.md R57, R62, R63, R64). The model's choices in it: after
the event Reset (log 32) a read is the free value of the counter of draws (92_eei_decisions.md D4; log 1, log
31); a field of `PSTATE` that holds no value saves a free value (log 1, log 31); the exits are those bit [4]
selects (log 14) with `OTHER_ILLEGAL_RETURN` false (log 7). -/
def Obligations.MasksAndIllegalStateInViewA64 : Prop :=
  FieldOfViewA64 20 Pstate.il ∧ FieldOfViewA64 8 Pstate.a ∧ FieldOfViewA64 7 Pstate.i ∧
    FieldOfViewA64 6 Pstate.f

/-- The condition flags and `IL` in view A32 (10_state.md R26 to R29, R36). The model's choices in it: after the
event Reset (log 32) a read is the free value of the counter of draws (92_eei_decisions.md D4; log 1, log 31);
the exits are those bit [4] selects (log 14) with `OTHER_ILLEGAL_RETURN` false (log 7). -/
def Obligations.ConditionFlagsInViewA32 : Prop :=
  FieldOfViewA32 31 Pstate.n ∧ FieldOfViewA32 30 Pstate.z ∧ FieldOfViewA32 29 Pstate.c ∧
    FieldOfViewA32 28 Pstate.v ∧ FieldOfViewA32 20 Pstate.il

/-! ### Reset -/

/-- After the event Reset no register holds a value: not `DSPSR_EL0`, no general register, no field of
`PSTATE` (70_reset_and_hazards.md R160, R161, by 92_eei_decisions.md D4, D21). `halted` is the free bit drawn
at that step (D21; log 31, log 32). That the parameters and the schedule stay is the model's (log 32). -/
def Obligations.ResetLeavesNoValue : Prop :=
  ∀ s : State, ∃ t, resetEvent s = .next t ∧ t.dspsr.unknown = true ∧
    (∀ n : Fin 31, t.x[n].unknown = true) ∧ t.pstate = .unk ∧
    t.halted = decide (Config.freeBits 1 s.drawIndex 0 = 1#1) ∧
    t.params = s.params ∧ t.schedule = s.schedule

/-- The launch state is one that the event Reset can leave: it holds no value in any register. That its
`halted` is true is the model's choice (log 3), and so are its parameters (log 4). -/
def Obligations.LaunchStateHoldsNoValue : Prop :=
  State.reset.dspsr.unknown = true ∧ (∀ n : Fin 31, State.reset.x[n].unknown = true) ∧
    State.reset.pstate = .unk ∧ State.reset.schedule = [] ∧ State.reset.halted = true

/-! ### The whole machine -/

/-- What every step keeps: canonical contents, no reserved bit stored under `RAZ_WI`, no `PSTATE` in Debug
state, no value for an absent feature, and a legal mode. -/
def Obligations.StepKeepsTheInvariant : Prop :=
  ∀ s t : State, s.Inv → step s = .next t → t.Inv

/-- The launch state meets the invariant. -/
def Obligations.LaunchStateMeetsTheInvariant : Prop :=
  State.reset.Inv

/-- No step changes the parameters of the implementation (92_eei_decisions.md D29; log 5). -/
def Obligations.StepKeepsTheParameters : Prop :=
  ∀ s t : State, step s = .next t → t.params = s.params

/-- The register is written by `MSR`, Debug state entry and reset and by nothing else (10_state.md R20,
40_debug_state_transfer.md R110). R20 excepts the AArch32 alias `DSPSR` of R22 as a further writer; that this
machine has no such access path is the model's choice (92_eei_decisions.md D18; log 28). -/
def Obligations.OnlyThreeStepsWriteTheRegister : Prop :=
  ∀ s t : State, step s = .next t → t.dspsr ≠ s.dspsr →
    (∃ w r rest, s.schedule = .word w :: rest ∧
      decode s.params.sysregWordLayout w = .ok (.msrDspsr r) ∧ s.halted = true) ∨
    (∃ rest, s.schedule = .debugEntry :: rest ∧ s.halted = false) ∨
    (∃ rest, s.schedule = .reset :: rest)

/-- Debug state is entered and left only by Debug state entry, Debug state exit and reset (10_state.md R72). -/
def Obligations.OnlyEventsEnterOrLeaveDebugState : Prop :=
  ∀ s t : State, step s = .next t → t.halted ≠ s.halted →
    (∃ rest, s.schedule = .debugEntry :: rest ∧ t.halted = true) ∨
    (∃ p q rest, s.schedule = .debugExit p q :: rest ∧ t.halted = false) ∨
    (∃ rest, s.schedule = .reset :: rest)

/-- No instruction changes `PSTATE`: a written value reaches it only at a Debug state exit
(41_sysreg_access.md R132, R135). Entry and reset leave it without a value. -/
def Obligations.OnlyEventsChangePstate : Prop :=
  ∀ s t : State, step s = .next t → t.pstate ≠ s.pstate →
    (∃ rest, s.schedule = .debugEntry :: rest ∧ t.pstate = .unk) ∨
    (∃ p q rest, s.schedule = .debugExit p q :: rest) ∨
    (∃ rest, s.schedule = .reset :: rest ∧ t.pstate = .unk)

/-- A general register is changed only by an `MRS` that names it, by the environment's write of it and by
reset (41_sysreg_access.md R135, 60_exceptions.md R147). -/
def Obligations.OnlyItsOwnWritersChangeARegister : Prop :=
  ∀ (s t : State) (n : Fin 31), step s = .next t → t.x[n] ≠ s.x[n] →
    (∃ w rest, s.schedule = .word w :: rest ∧
      decode s.params.sysregWordLayout w = .ok (.mrsDspsr (.gpr n)) ∧
      s.halted = true) ∨
    (∃ v rest, s.schedule = .setX n v :: rest) ∨
    (∃ rest, s.schedule = .reset :: rest)

/-- The machine faults only as `Undefined`, at a word of an instruction outside Debug state, and as
`IllegalReturn`, at a Debug state exit from Debug state (60_exceptions.md R140, R141, R143). -/
def Obligations.TheTwoAbnormalOutcomes : Prop :=
  ∀ (s : State) (f : Fault), step s = .fault f →
    (f = .undefined ∧ s.halted = false ∧
      ∃ w i rest, s.schedule = .word w :: rest ∧ decode s.params.sysregWordLayout w = .ok i) ∨
    (s.halted = true ∧ (∃ p q rest, s.schedule = .debugExit p q :: rest) ∧
      ∃ d left, f = .illegalReturn d left ∧ left.halted = false ∧ left.dspsr = s.dspsr ∧
        left.pstate = .unk)

/-! ### The spec's rules word for word -/

/-- 40_debug_state_transfer.md R119: Debug state exit changes `PSTATE` and `halted` and nothing else. The
register, the general registers and the parameters are as before, at a completed exit and at an illegal
return event. -/
def Obligations.ExitChangesOnlyPstateAndHalted : Prop :=
  ∀ (s t : State) (p q : Bool),
    (debugExit p q s = .next t ∨ ∃ d, debugExit p q s = .fault (.illegalReturn d t)) →
      t.dspsr = s.dspsr ∧ t.x = s.x ∧ t.params = s.params

/-- 10_state.md R62, R63, R64: the interrupt masks in view A64. Entry from AArch64 state sets the bit to the
value of the `PSTATE` field, an exit to AArch64 state copies it to the `PSTATE` field, the bit is
read/write, and the register is UNKNOWN after reset. -/
def Obligations.InterruptMasksInViewA64 : Prop :=
  (TakesTheHeldValue 8 Pstate.a ∧ GivesTheFieldItsBits 0#1 8 Pstate.a ∧ WrittenAndRead 8 1) ∧
  (TakesTheHeldValue 7 Pstate.i ∧ GivesTheFieldItsBits 0#1 7 Pstate.i ∧ WrittenAndRead 7 1) ∧
  (TakesTheHeldValue 6 Pstate.f ∧ GivesTheFieldItsBits 0#1 6 Pstate.f ∧ WrittenAndRead 6 1) ∧
  UnknownAfterReset

/-- 10_state.md R26 to R29: the condition flags in view A32. An exit to AArch32 state copies the bit to the
`PSTATE` field, the bit is read/write, and the register is UNKNOWN after reset. -/
def Obligations.FlagsCopiedFromViewA32 : Prop :=
  (GivesTheFieldItsBits 1#1 31 Pstate.n ∧ WrittenAndRead 31 1) ∧
  (GivesTheFieldItsBits 1#1 30 Pstate.z ∧ WrittenAndRead 30 1) ∧
  (GivesTheFieldItsBits 1#1 29 Pstate.c ∧ WrittenAndRead 29 1) ∧
  (GivesTheFieldItsBits 1#1 28 Pstate.v ∧ WrittenAndRead 28 1) ∧
  UnknownAfterReset

/-! ### The word layout -/

/-- The default of `SYSREG_WORD_LAYOUT` is a layout, the launch state has it, and under it the words of the two
instructions are `0xD53B4500 + t` and `0xD51B4500 + t` for every register number `t` (30_encoding.md R93,
general knowledge: log 8). -/
def Obligations.WordsUnderTheDefaultLayout : Prop :=
  Config.sysregWordLayoutDefault.WellFormed ∧
  State.reset.params.sysregWordLayout = Config.sysregWordLayoutDefault ∧
  ∀ t : BitVec 5,
    encode Config.sysregWordLayoutDefault (.mrsDspsr (xtOfNumber t)) = 0xD53B4500#32 + t.setWidth 32 ∧
    encode Config.sysregWordLayoutDefault (.msrDspsr (xtOfNumber t)) = 0xD51B4500#32 + t.setWidth 32

/-- What the two instructions do is said of the decoded form and does not depend on the word layout
(30_encoding.md R93, 92_eei_decisions.md D10): under any two layouts the outcome is the same, a next state's
own parameters apart. -/
def Obligations.MeaningsDoNotDependOnTheWordLayout : Prop :=
  ∀ (i : Instr) (s : State) (y y' : SysregWordLayout),
    let under (z : SysregWordLayout) (u : State) : State :=
      { u with params := { u.params with sysregWordLayout := z } }
    (∀ t, exec i (under y s) = .next t → exec i (under y' s) = .next (under y' t)) ∧
    (∀ f, exec i (under y s) = .fault f → exec i (under y' s) = .fault f) ∧
    (∀ r, exec i (under y s) = .refused r → exec i (under y' s) = .refused r)
end

