-- ==== Sys2Proof/Laws/Bits.lean ====
section
/-!
SUPPORT. What slices of the register read after a slice of it was written.
-/
namespace Sys2Proof.Machine

theorem getLsbD_span (lo w i : Nat) :
    (span lo w).getLsbD i = (decide (i < 64) && decide (lo ≤ i) && decide (i < lo + w)) := by
  rw [span, BitVec.getLsbD_shiftLeft, BitVec.getLsbD_setWidth,
    BitVec.getLsbD_allOnes, Bool.eq_iff_iff]
  simp only [Bool.and_eq_true, Bool.not_eq_true', decide_eq_true_eq, decide_eq_false_iff_not]
  omega

theorem getLsbD_slice (v : Xword) (lo w i : Nat) :
    (slice v lo w).getLsbD i = (decide (i < w) && v.getLsbD (lo + i)) := by
  rw [slice, BitVec.getLsbD_extractLsb']

theorem getLsbD_put {w : Nat} (lo : Nat) (f : BitVec w) (d : Xword) (i : Nat) (h : i < 64) :
    (put lo f d).getLsbD i =
      if lo ≤ i ∧ i < lo + w then f.getLsbD (i - lo) else d.getLsbD i := by
  rw [put, BitVec.getLsbD_or, BitVec.getLsbD_and, BitVec.getLsbD_not, getLsbD_span,
    BitVec.getLsbD_shiftLeft, BitVec.getLsbD_setWidth]
  have h5 : i - lo < 64 := by omega
  by_cases h1 : lo ≤ i
  · have h4 : ¬ i < lo := by omega
    by_cases h2 : i < lo + w
    · simp only [h, h1, h2, h4, h5, decide_true, decide_false, Bool.not_true, Bool.not_false,
        Bool.and_false, Bool.and_true, Bool.true_and, Bool.false_or, and_self, if_true]
    · have h3 : f.getLsbD (i - lo) = false := BitVec.getLsbD_of_ge _ _ (by omega)
      simp only [h, h1, h2, h3, decide_true, decide_false, Bool.not_false,
        Bool.and_false, Bool.and_true, Bool.or_false, and_false, if_false]
  · have h4 : i < lo := by omega
    simp only [h, h1, h4, decide_true, decide_false, Bool.not_true, Bool.not_false, Bool.and_false,
      Bool.and_true, Bool.false_and, Bool.or_false, false_and, if_false]

/-- The slice that was written reads as what was written. -/
@[simp] theorem slice_put_same {w : Nat} (lo : Nat) (f : BitVec w) (d : Xword) (h : lo + w ≤ 64) :
    slice (put lo f d) lo w = f := by
  apply BitVec.eq_of_getLsbD_eq
  intro i hi
  rw [getLsbD_slice, getLsbD_put _ _ _ _ (by omega)]
  simp [hi]

/-- A slice that shares no bit with the one written reads as before. -/
@[simp] theorem slice_put_apart {w : Nat} (lo : Nat) (f : BitVec w) (d : Xword) (lo' w' : Nat)
    (h : lo' + w' ≤ 64) (apart : lo' + w' ≤ lo ∨ lo + w ≤ lo') :
    slice (put lo f d) lo' w' = slice d lo' w' := by
  apply BitVec.eq_of_getLsbD_eq
  intro i hi
  rw [getLsbD_slice, getLsbD_slice, getLsbD_put _ _ _ _ (by omega)]
  have : ¬ (lo ≤ lo' + i ∧ lo' + i < lo + w) := by omega
  simp [this]

@[simp] theorem slice_putIf_same {w : Nat} (b : Bool) (lo : Nat) (f : BitVec w) (d : Xword)
    (h : lo + w ≤ 64) : slice (putIf b lo f d) lo w = if b then f else slice d lo w := by
  cases b <;> simp [putIf, slice_put_same _ _ _ h]

@[simp] theorem slice_putIf_apart {w : Nat} (b : Bool) (lo : Nat) (f : BitVec w) (d : Xword) (lo' w' : Nat)
    (h : lo' + w' ≤ 64) (apart : lo' + w' ≤ lo ∨ lo + w ≤ lo') :
    slice (putIf b lo f d) lo' w' = slice d lo' w' := by
  cases b <;> simp [putIf, slice_put_apart _ _ _ _ _ h apart]

@[simp] theorem slice_zero (lo w : Nat) : slice 0#64 lo w = 0#w := by
  apply BitVec.eq_of_getLsbD_eq
  intro i _
  rw [getLsbD_slice, BitVec.getLsbD_zero, BitVec.getLsbD_zero, Bool.and_false]

@[simp] theorem slice_or (a b : Xword) (lo w : Nat) :
    slice (a ||| b) lo w = slice a lo w ||| slice b lo w := by
  apply BitVec.eq_of_getLsbD_eq
  intro i hi
  rw [getLsbD_slice, BitVec.getLsbD_or, BitVec.getLsbD_or, getLsbD_slice, getLsbD_slice]
  simp [hi]

@[simp] theorem slice_and (a b : Xword) (lo w : Nat) :
    slice (a &&& b) lo w = slice a lo w &&& slice b lo w := by
  apply BitVec.eq_of_getLsbD_eq
  intro i hi
  rw [getLsbD_slice, BitVec.getLsbD_and, BitVec.getLsbD_and, getLsbD_slice, getLsbD_slice]
  simp [hi]

/-- A slice that shares no bit with a span of ones reads zero. -/
@[simp] theorem slice_span_apart (lo w lo' w' : Nat) (apart : lo' + w' ≤ lo ∨ lo + w ≤ lo') :
    slice (span lo w) lo' w' = 0#w' := by
  apply BitVec.eq_of_getLsbD_eq
  intro i hi
  rw [getLsbD_slice, getLsbD_span, BitVec.getLsbD_zero, Bool.eq_false_iff]
  simp only [ne_eq, Bool.and_eq_true, decide_eq_true_eq]
  omega

@[simp] theorem slice_spanIf_apart (b : Bool) (lo w lo' w' : Nat)
    (apart : lo' + w' ≤ lo ∨ lo + w ≤ lo') : slice (spanIf b lo w) lo' w' = 0#w' := by
  cases b <;> simp [spanIf, slice_zero, slice_span_apart _ _ _ _ apart]

@[simp] theorem slice_spanIf_false (lo w lo' w' : Nat) : slice (spanIf false lo w) lo' w' = 0#w' := by
  simp [spanIf, slice_zero]

/-- A one-bit slice is that bit. -/
theorem slice_one_eq (v : Xword) (i : Nat) : slice v i 1 = BitVec.ofBool (v.getLsbD i) := by
  apply BitVec.eq_of_getLsbD_eq
  intro j hj
  have : j = 0 := by omega
  subst this
  rw [getLsbD_slice, BitVec.getLsbD_ofBool]
  simp

/-- Under `STORED` a write stores every bit. -/
@[simp] theorem writeMask_stored (c : Params) (v : Xword) (h : c.res0Policy = .stored) :
    writeMask c v = v := by
  simp [writeMask, h]

/-- Bit by bit, what a write stores under `RAZ_WI`. -/
theorem getLsbD_writeMask_razWi (c : Params) (v : Xword) (i : Nat) (h : c.res0Policy = .razWi)
    (hi : i < 64) :
    (writeMask c v).getLsbD i = (v.getLsbD i && !(res0Eff c).getLsbD i) := by
  simp [writeMask, h, hi]

/-- A slice that holds no reserved bit is stored whole under either policy. -/
theorem slice_writeMask (c : Params) (v : Xword) (lo w : Nat)
    (h : slice (res0Eff c) lo w = 0#w) : slice (writeMask c v) lo w = slice v lo w := by
  apply BitVec.eq_of_getLsbD_eq
  intro i hi
  have hb : (slice (res0Eff c) lo w).getLsbD i = false := by rw [h]; simp
  rw [getLsbD_slice] at hb ⊢
  rw [getLsbD_slice]
  cases hp : c.res0Policy with
  | stored => simp [writeMask, hp]
  | razWi =>
    by_cases h64 : lo + i < 64
    · rw [getLsbD_writeMask_razWi c v _ hp h64]
      simp_all
    · simp [BitVec.getLsbD_of_ge _ _ (Nat.le_of_not_lt h64)]

/-- Writing a slice in which `m` has no bit keeps a word apart from `m`. -/
theorem put_and_eq_zero {w : Nat} (lo : Nat) (f : BitVec w) (d m : Xword) (h : d &&& m = 0#64)
    (hm : slice m lo w = 0#w) : put lo f d &&& m = 0#64 := by
  apply BitVec.eq_of_getLsbD_eq
  intro i hi
  have hd := congrArg (fun v => v.getLsbD i) h
  have hs := congrArg (fun v => v.getLsbD (i - lo)) hm
  simp only [BitVec.getLsbD_and, getLsbD_slice, BitVec.getLsbD_zero] at hd hs
  rw [BitVec.getLsbD_and, getLsbD_put _ _ _ _ hi, BitVec.getLsbD_zero]
  split
  · have hw : i - lo < w := by omega
    have hi' : lo + (i - lo) = i := by omega
    rw [decide_eq_true hw, hi', Bool.true_and] at hs
    rw [hs, Bool.and_false]
  · exact hd

theorem putIf_and_eq_zero {w : Nat} (b : Bool) (lo : Nat) (f : BitVec w) (d m : Xword)
    (h : d &&& m = 0#64) (hm : b = true → slice m lo w = 0#w) : putIf b lo f d &&& m = 0#64 := by
  cases b with
  | false => exact h
  | true => exact put_and_eq_zero lo f d m h (hm rfl)

/-- Writing zero keeps a word apart from any other. -/
theorem put_zero_and_eq_zero {w : Nat} (lo : Nat) (d m : Xword) (h : d &&& m = 0#64) :
    put lo 0#w d &&& m = 0#64 := by
  apply BitVec.eq_of_getLsbD_eq
  intro i hi
  have hd := congrArg (fun v => v.getLsbD i) h
  simp only [BitVec.getLsbD_and, BitVec.getLsbD_zero] at hd
  rw [BitVec.getLsbD_and, getLsbD_put _ _ _ _ hi]
  split
  · rw [BitVec.getLsbD_zero, BitVec.getLsbD_zero, Bool.false_and]
  · rw [hd, BitVec.getLsbD_zero]

/-- Under `RAZ_WI` what a write stores has no reserved bit. -/
theorem writeMask_reserved (c : Params) (v : Xword) (h : c.res0Policy = .razWi) :
    writeMask c v &&& res0Eff c = 0#64 := by
  simp only [writeMask, h, BitVec.and_assoc]
  rw [BitVec.and_comm (~~~ _)]
  simp

end Sys2Proof.Machine
end

