-- ==== Sys2Proof/Laws/Decode.lean ====
section
/-!
SUPPORT. The fields of an instruction word under a word layout: a field placed in the word is read back, fields
that are apart do not disturb each other, and the fields of a well-formed layout fill the word.
-/
namespace Sys2Proof

/-- The bits of a field placed in the word. -/
theorem getLsbD_place {w : Nat} (lo : Nat) (f : BitVec w) (i : Nat) (h : i < 32) :
    (f.setWidth 32 <<< lo).getLsbD i = (decide (lo ≤ i) && f.getLsbD (i - lo)) := by
  rw [BitVec.getLsbD_shiftLeft, BitVec.getLsbD_setWidth]
  by_cases hl : lo ≤ i
  · have h' : i - lo < 32 := by omega
    simp [h, hl, h', Nat.not_lt.2 hl]
  · simp [h, hl, Nat.lt_of_not_le hl]

/-- A field is read where it was placed. -/
theorem extract_place_same {w : Nat} (lo : Nat) (f : BitVec w) (h : lo + w ≤ 32) :
    (f.setWidth 32 <<< lo).extractLsb' lo w = f := by
  apply BitVec.eq_of_getLsbD_eq
  intro i hi
  rw [BitVec.getLsbD_extractLsb', getLsbD_place lo f _ (by omega)]
  simp [hi]

/-- Where a field lies apart from a placed one, the placed one leaves zeros. -/
theorem extract_place_apart {w : Nat} (lo : Nat) (f : BitVec w) (lo' w' : Nat)
    (inWord : lo' + w' ≤ 32) (apart : fieldsApart (lo, w) (lo', w')) :
    (f.setWidth 32 <<< lo).extractLsb' lo' w' = 0#w' := by
  apply BitVec.eq_of_getLsbD_eq
  intro i hi
  rw [BitVec.getLsbD_extractLsb', getLsbD_place lo f _ (by omega)]
  rcases apart with h | h
  · have h' : w ≤ lo' + i - lo := by simp only at h; omega
    simp [BitVec.getLsbD_of_ge f _ h']
  · have h' : ¬ lo ≤ lo' + i := by simp only at h; omega
    simp [h']

/-- Reading a field of two words joined by or. -/
theorem extract_or (a b : Iword) (lo w : Nat) :
    (a ||| b).extractLsb' lo w = a.extractLsb' lo w ||| b.extractLsb' lo w := by
  apply BitVec.eq_of_getLsbD_eq
  intro i hi
  simp [hi]

/-- Fields that lie apart in a word of `n` bits, and have `n` bits in all, leave no bit of it out. -/
theorem mem_field_of_apart (fields : List (Nat × Nat)) (n : Nat)
    (inWord : ∀ f ∈ fields, f.1 + f.2 ≤ n) (apart : fields.Pairwise fieldsApart)
    (total : (fields.map Prod.snd).sum = n) (k : Nat) (h : k < n) :
    ∃ f ∈ fields, f.1 ≤ k ∧ k < f.1 + f.2 := by
  let bits := fields.flatMap fun f => List.range' f.1 f.2
  have nodup : bits.Nodup := by
    refine List.nodup_flatMap.2 ⟨fun f _ => List.nodup_range', apart.imp fun {f g} hfg => ?_⟩
    intro i hf hg
    rw [List.mem_range'_1] at hf hg
    rcases hfg with hfg | hfg <;> omega
  have length : bits.length = n := by
    rw [List.length_flatMap, ← total]
    simp
  have sub : bits.toFinset ⊆ Finset.range n := by
    intro i hi
    obtain ⟨f, hf, hi⟩ := List.mem_flatMap.1 (List.mem_toFinset.1 hi)
    rw [List.mem_range'_1] at hi
    exact Finset.mem_range.2 (lt_of_lt_of_le hi.2 (inWord f hf))
  have all := Finset.eq_of_subset_of_card_le sub
    (by rw [Finset.card_range, List.toFinset_card_of_nodup nodup, length])
  have hk : k ∈ bits.toFinset := all ▸ Finset.mem_range.2 h
  obtain ⟨f, hf, hk⟩ := List.mem_flatMap.1 (List.mem_toFinset.1 hk)
  exact ⟨f, hf, List.mem_range'_1.1 hk⟩

/-- Two words with the same fields, under a well-formed layout, are the same word. -/
theorem SysregWordLayout.WellFormed.word_ext {y : SysregWordLayout} (wf : y.WellFormed) (a b : Iword)
    (h : ∀ f ∈ y.fields, a.extractLsb' f.1 f.2 = b.extractLsb' f.1 f.2) : a = b := by
  apply BitVec.eq_of_getLsbD_eq
  intro k hk
  obtain ⟨f, hf, h1, h2⟩ := mem_field_of_apart y.fields 32 wf.inWord wf.apart rfl k hk
  have hb := congrArg (fun v => v.getLsbD (k - f.1)) (h f hf)
  have h3 : k - f.1 < f.2 := by omega
  have h4 : f.1 + (k - f.1) = k := by omega
  simpa [BitVec.getLsbD_extractLsb', h3, h4] using hb

/-- Under a well-formed layout a move is read back from the word that holds it. -/
theorem sysregMoveOf_wordOfSysregMove {y : SysregWordLayout} (wf : y.WellFormed) (m : SysregMove)
    (h : m.op0.msb = true) : sysregMoveOf y (wordOfSysregMove y m) = some m := by
  have inWord := wf.inWord
  have apart := wf.apart
  have apart' : y.fields.Pairwise fun f g => fieldsApart g f := apart.imp Or.symm
  simp only [SysregWordLayout.fields, List.pairwise_cons, List.mem_cons, List.not_mem_nil, or_false,
    forall_eq_or_imp, forall_eq, false_imp_iff, implies_true, List.Pairwise.nil, and_true] at inWord apart apart'
  obtain ⟨i1, i2, i3, i4, i5, i6, i7, i8⟩ := inWord
  obtain ⟨⟨a12, a13, a14, a15, a16, a17, a18⟩, ⟨a23, a24, a25, a26, a27, a28⟩, ⟨a34, a35, a36, a37, a38⟩,
    ⟨a45, a46, a47, a48⟩, ⟨a56, a57, a58⟩, ⟨a67, a68⟩, a78⟩ := apart
  obtain ⟨⟨b12, b13, b14, b15, b16, b17, b18⟩, ⟨b23, b24, b25, b26, b27, b28⟩, ⟨b34, b35, b36, b37, b38⟩,
    ⟨b45, b46, b47, b48⟩, ⟨b56, b57, b58⟩, ⟨b67, b68⟩, b78⟩ := apart'
  have all : (wordOfSysregMove y m).extractLsb' y.fixedLo 10 = y.fixedBits ∧
      (wordOfSysregMove y m).extractLsb' y.lLo 1 = m.l ^^^ y.writeBit ∧
      (wordOfSysregMove y m).extractLsb' y.op0Lo 2 = m.op0 ∧
      (wordOfSysregMove y m).extractLsb' y.op1Lo 3 = m.op1 ∧
      (wordOfSysregMove y m).extractLsb' y.crnLo 4 = m.crn ∧
      (wordOfSysregMove y m).extractLsb' y.crmLo 4 = m.crm ∧
      (wordOfSysregMove y m).extractLsb' y.op2Lo 3 = m.op2 ∧
      (wordOfSysregMove y m).extractLsb' y.rtLo 5 = m.rt := by
    unfold wordOfSysregMove
    simp only [extract_or]
    refine ⟨?_, ?_, ?_, ?_, ?_, ?_, ?_, ?_⟩ <;>
      simp (disch := assumption) only [extract_place_same, extract_place_apart, BitVec.or_zero,
        BitVec.zero_or]
  obtain ⟨e1, e2, e3, e4, e5, e6, e7, e8⟩ := all
  unfold sysregMoveOf
  simp [e1, e2, e3, e4, e5, e6, e7, e8, h]

/-- Under a well-formed layout a word that holds a move is the word that move is placed in. -/
theorem wordOfSysregMove_of_sysregMoveOf {y : SysregWordLayout} (wf : y.WellFormed) (w : Iword)
    (m : SysregMove) (h : sysregMoveOf y w = some m) : wordOfSysregMove y m = w := by
  have hm : w.extractLsb' y.fixedLo 10 = y.fixedBits ∧ m.op0.msb = true ∧
      w.extractLsb' y.lLo 1 = m.l ^^^ y.writeBit ∧ w.extractLsb' y.op0Lo 2 = m.op0 ∧
      w.extractLsb' y.op1Lo 3 = m.op1 ∧ w.extractLsb' y.crnLo 4 = m.crn ∧
      w.extractLsb' y.crmLo 4 = m.crm ∧ w.extractLsb' y.op2Lo 3 = m.op2 ∧
      w.extractLsb' y.rtLo 5 = m.rt := by
    unfold sysregMoveOf at h
    simp only [Option.ite_none_right_eq_some, Option.some.injEq] at h
    obtain ⟨hc, rfl⟩ := h
    exact ⟨hc.1, hc.2, by simp, rfl, rfl, rfl, rfl, rfl, rfl⟩
  obtain ⟨e1, e0, e2, e3, e4, e5, e6, e7, e8⟩ := hm
  have back := sysregMoveOf_wordOfSysregMove wf m e0
  unfold sysregMoveOf at back
  simp only [Option.ite_none_right_eq_some, Option.some.injEq] at back
  obtain ⟨hc, hb⟩ := back
  have hl := congrArg (fun q => q.l ^^^ y.writeBit) hb
  simp only [BitVec.xor_assoc, BitVec.xor_self, BitVec.xor_zero] at hl
  refine wf.word_ext _ _ ?_
  simp only [SysregWordLayout.fields, List.mem_cons, List.not_mem_nil, or_false, forall_eq_or_imp, forall_eq]
  exact ⟨hc.1.trans e1.symm, hl.trans e2.symm, (congrArg SysregMove.op0 hb).trans e3.symm,
    (congrArg SysregMove.op1 hb).trans e4.symm, (congrArg SysregMove.crn hb).trans e5.symm,
    (congrArg SysregMove.crm hb).trans e6.symm, (congrArg SysregMove.op2 hb).trans e7.symm,
    (congrArg SysregMove.rt hb).trans e8.symm⟩

/-- The register number of the operand a number names is the number. -/
@[simp] theorem numberOfXt_xtOfNumber (b : BitVec 5) : numberOfXt (xtOfNumber b) = b := by
  have h : b.toNat < 32 := b.isLt
  unfold xtOfNumber
  split
  · simp [numberOfXt]
  · apply BitVec.eq_of_toNat_eq
    simp [numberOfXt]
    omega

end Sys2Proof
end

