-- ==== Sys2Proof/Laws/State.lean ====
section
/-!
SUPPORT. One lemma for each field of the state and each named update of it.
-/
namespace Sys2Proof.Machine

variable (s : State) (n : Fin 31) (v : Xword) (w : Iword)

@[simp] theorem advance_params : (advance s).params = s.params := rfl
@[simp] theorem advance_dspsr : (advance s).dspsr = s.dspsr := rfl
@[simp] theorem advance_x : (advance s).x = s.x := rfl
@[simp] theorem advance_pstate : (advance s).pstate = s.pstate := rfl
@[simp] theorem advance_halted : (advance s).halted = s.halted := rfl
@[simp] theorem advance_drawIndex : (advance s).drawIndex = s.drawIndex + 1 := rfl
@[simp] theorem advance_schedule : (advance s).schedule = s.schedule := rfl

@[simp] theorem writeDspsr_params : (writeDspsr s v).params = s.params := rfl
@[simp] theorem writeDspsr_dspsr : (writeDspsr s v).dspsr = .known (writeMask s.params v) := rfl
@[simp] theorem writeDspsr_x : (writeDspsr s v).x = s.x := rfl
@[simp] theorem writeDspsr_pstate : (writeDspsr s v).pstate = s.pstate := rfl
@[simp] theorem writeDspsr_halted : (writeDspsr s v).halted = s.halted := rfl
@[simp] theorem writeDspsr_drawIndex : (writeDspsr s v).drawIndex = s.drawIndex := rfl
@[simp] theorem writeDspsr_schedule : (writeDspsr s v).schedule = s.schedule := rfl

@[simp] theorem writeX_params : (writeX s n v).params = s.params := rfl
@[simp] theorem writeX_dspsr : (writeX s n v).dspsr = s.dspsr := rfl
@[simp] theorem writeX_pstate : (writeX s n v).pstate = s.pstate := rfl
@[simp] theorem writeX_halted : (writeX s n v).halted = s.halted := rfl
@[simp] theorem writeX_drawIndex : (writeX s n v).drawIndex = s.drawIndex := rfl
@[simp] theorem writeX_schedule : (writeX s n v).schedule = s.schedule := rfl

/-- A general register reads back what was written to it. -/
@[simp] theorem writeX_x_same : (writeX s n v).x[n] = .known v := by
  simp [writeX]

/-- A write to a general register leaves every other one alone. -/
theorem writeX_x_other (m : Fin 31) (h : m ≠ n) : (writeX s n v).x[m] = s.x[m] := by
  have h' : ¬ n.val = m.val := fun e => h (Fin.ext e.symm)
  simp [writeX, h']

@[simp] theorem illegalReturnState_params : (illegalReturnState s).params = s.params := rfl
@[simp] theorem illegalReturnState_dspsr : (illegalReturnState s).dspsr = s.dspsr := rfl
@[simp] theorem illegalReturnState_x : (illegalReturnState s).x = s.x := rfl
@[simp] theorem illegalReturnState_pstate : (illegalReturnState s).pstate = .unk := rfl
@[simp] theorem illegalReturnState_halted : (illegalReturnState s).halted = false := rfl
@[simp] theorem illegalReturnState_schedule : (illegalReturnState s).schedule = s.schedule := rfl

@[simp] theorem supplyWord_params : (supplyWord w s).params = s.params := rfl
@[simp] theorem supplyWord_dspsr : (supplyWord w s).dspsr = s.dspsr := rfl
@[simp] theorem supplyWord_x : (supplyWord w s).x = s.x := rfl
@[simp] theorem supplyWord_pstate : (supplyWord w s).pstate = s.pstate := rfl
@[simp] theorem supplyWord_halted : (supplyWord w s).halted = s.halted := rfl
@[simp] theorem supplyWord_drawIndex : (supplyWord w s).drawIndex = s.drawIndex := rfl
@[simp] theorem supplyWord_schedule : (supplyWord w s).schedule = .word w :: s.schedule := rfl

variable {k : Nat} (b : BitVec k) (i j : Nat)

@[simp] theorem known_bits : (Held.known b).bits = b := rfl
@[simp] theorem known_unknown : (Held.known b).unknown = false := rfl
@[simp] theorem unk_bits : (Held.unk k).bits = 0#k := rfl
@[simp] theorem unk_unknown : (Held.unk k).unknown = true := rfl
@[simp] theorem heldValue_known : heldValue (.known b) i j = b := rfl
@[simp] theorem heldValue_unk : heldValue (.unk k) i j = Config.freeBits k i j := rfl

end Sys2Proof.Machine
end

