-- ==== Sys2Proof/Laws/Ops.lean ====
section
/-!
SUPPORT. What each shared operation can do, said once.
-/
namespace Sys2Proof.Machine

/-- When the guard of the two instructions lets a step happen, and which. -/
theorem inDebugState_next (s t : State) (effect : Option State) :
    inDebugState s effect = .next t ↔
      s.halted = true ∧ ∃ u, effect = some u ∧ t = advance u := by
  cases hh : s.halted <;> cases effect <;> simp [inDebugState, hh, raiseUndefined, eq_comm]

/-- The guard faults only as `Undefined`, and only outside Debug state. -/
theorem inDebugState_fault (s : State) (effect : Option State) (f : Fault) :
    inDebugState s effect = .fault f ↔ s.halted = false ∧ f = .undefined := by
  cases hh : s.halted <;> cases effect <;> simp [inDebugState, hh, raiseUndefined, eq_comm]

/-- What a write to a destination operand can be. -/
theorem writeOperand_cases (s t : State) (v : Xword) (r : Xt) (h : writeOperand s v r = some t) :
    (∃ n, r = .gpr n ∧ t = writeX s n v) ∨
      (r = .r31 ∧ s.params.rt31IsZr = true ∧ t = s) := by
  cases r with
  | gpr n => exact .inl ⟨n, rfl, by simpa [writeOperand] using h.symm⟩
  | r31 =>
    cases hz : s.params.rt31IsZr with
    | false => simp [writeOperand, hz] at h
    | true => exact .inr ⟨rfl, rfl, by simpa [writeOperand, hz] using h.symm⟩

/-- What a read of a source operand can be. -/
theorem readOperand_cases (s : State) (v : Xword) (r : Xt) (h : readOperand s r = some v) :
    (∃ n, r = .gpr n ∧ v = readX s n) ∨
      (r = .r31 ∧ s.params.rt31IsZr = true ∧ v = 0#64) := by
  cases r with
  | gpr n => exact .inl ⟨n, rfl, by simpa [readOperand] using h.symm⟩
  | r31 =>
    cases hz : s.params.rt31IsZr with
    | false => simp [readOperand, hz] at h
    | true => exact .inr ⟨rfl, rfl, by simpa [readOperand, hz] using h.symm⟩

/-- When Debug state entry happens, and what it does. -/
theorem debugEntry_next (s t : State) :
    debugEntry s = .next t ↔
      s.halted = false ∧ heldValue s.pstate.nRW s.drawIndex 4 = 0#1 ∧
        t = advance { s with
          dspsr := .known (saveA64 s.params s.pstate s.drawIndex), pstate := .unk, halted := true } := by
  cases hh : s.halted <;> simp only [debugEntry, hh]
  · by_cases h : heldValue s.pstate.nRW s.drawIndex 4 = 0#1 <;> simp [h, eq_comm]
  · simp

/-- Debug state exit by cases: not enabled, a legal exit, or an illegal return event. -/
theorem debugExit_eq (s : State) (ssCopy other : Bool) :
    debugExit ssCopy other s =
      if s.halted then
        match (returnTarget s.params (readDspsr s)).filter fun target =>
            elSetHas s.params.implementedEl (returnLevel s.params target) && !other with
        | some target => .next (advance { s with
            halted := false, pstate := restorePstate s.params ssCopy (readDspsr s) target })
        | none => .fault (.illegalReturn (readDspsr s) (illegalReturnState s))
      else .refused .debugExitNotEnabled := by
  unfold debugExit
  cases returnTarget s.params (readDspsr s) with
  | none => rfl
  | some target =>
    cases h : (elSetHas s.params.implementedEl (returnLevel s.params target) && !other) <;>
      simp [Option.filter, h]

/-- When Debug state exit happens, and what it does. -/
theorem debugExit_next (s t : State) (ssCopy other : Bool) :
    debugExit ssCopy other s = .next t ↔
      s.halted = true ∧ other = false ∧ ∃ target,
        returnTarget s.params (readDspsr s) = some target ∧
        elSetHas s.params.implementedEl (returnLevel s.params target) = true ∧
        t = advance { s with
          halted := false, pstate := restorePstate s.params ssCopy (readDspsr s) target } := by
  rw [debugExit_eq]
  constructor
  · intro h
    split at h
    · split at h
      · rename_i hh _ target ht
        obtain ⟨ht, hi⟩ := Option.filter_eq_some_iff.1 ht
        rw [Bool.and_eq_true, Bool.not_eq_true'] at hi
        exact ⟨hh, hi.2, target, ht, hi.1, by injection h with h; exact h.symm⟩
      · cases h
    · cases h
  · rintro ⟨hh, rfl, target, ht, hi, rfl⟩
    simp [hh, ht, hi, Option.filter]

/-- When Debug state exit faults: as an illegal return event. -/
theorem debugExit_fault (s : State) (ssCopy other : Bool) (f : Fault) :
    debugExit ssCopy other s = .fault f ↔
      s.halted = true ∧ f = .illegalReturn (readDspsr s) (illegalReturnState s) ∧
        ∀ target, returnTarget s.params (readDspsr s) = some target →
          (elSetHas s.params.implementedEl (returnLevel s.params target) && !other) = false := by
  rw [debugExit_eq]
  constructor
  · intro h
    split at h
    · split at h
      · cases h
      · rename_i hh _ ht
        refine ⟨hh, by injection h with h; exact h.symm, fun target hs => ?_⟩
        simpa using Option.filter_eq_none_iff.1 ht target hs
    · cases h
  · rintro ⟨hh, rfl, hn⟩
    rw [if_pos hh, Option.filter_eq_none_iff.2 (by simpa using hn)]

/-- Debug state entry never faults. -/
theorem debugEntry_no_fault (s : State) (f : Fault) : debugEntry s ≠ .fault f := by
  cases hh : s.halted <;> simp only [debugEntry, hh]
  · by_cases h : heldValue s.pstate.nRW s.drawIndex 4 = 0#1 <;> simp [h]
  · simp

/-- The target of an exit to AArch64 state. -/
theorem returnTarget_aarch64 (c : Params) (d : Xword) (level : EL) :
    returnTarget c d = some (.aarch64 level) ↔
      viewBit c d = 0#1 ∧ (a64ModeOfBits (slice d 0 4)).isSome = true ∧
        level = a64ModeLevel (slice d 0 4) := by
  by_cases h : viewBit c d = 0#1
  · cases hm : a64ModeOfBits (slice d 0 4) <;> simp [returnTarget, h, hm, eq_comm]
  · cases hm : a32ModeOfBits (slice d 0 4) <;> simp [returnTarget, h, hm]

/-- The target of an exit to AArch32 state. -/
theorem returnTarget_aarch32 (c : Params) (d : Xword) (mode : A32Mode) :
    returnTarget c d = some (.aarch32 mode) ↔
      viewBit c d ≠ 0#1 ∧ a32ModeOfBits (slice d 0 4) = some mode := by
  by_cases h : viewBit c d = 0#1
  · cases hm : a64ModeOfBits (slice d 0 4) <;> simp [returnTarget, h, hm]
  · cases hm : a32ModeOfBits (slice d 0 4) <;> simp [returnTarget, h, hm]

/-- Everything one action can do where it answers a next state. -/
theorem runAction_next_cases (a : Action) (s t : State) (h : runAction a s = .next t) :
    (∃ w r u, a = .word w ∧ decode s.params.sysregWordLayout w = .ok (.mrsDspsr r) ∧ s.halted = true ∧
      writeOperand s (readDspsr s) r = some u ∧ t = advance u) ∨
    (∃ w r v, a = .word w ∧ decode s.params.sysregWordLayout w = .ok (.msrDspsr r) ∧ s.halted = true ∧
      readOperand s r = some v ∧ t = advance (writeDspsr s v)) ∨
    (a = .debugEntry ∧ debugEntry s = .next t) ∨
    (∃ ssCopy other, a = .debugExit ssCopy other ∧ debugExit ssCopy other s = .next t) ∨
    (a = .reset ∧ resetEvent s = .next t) ∨
    (∃ n v, a = .setX n v ∧ t = advance (writeX s n v)) := by
  cases a with
  | word w =>
    simp only [runAction, runWord] at h
    cases hd : decode s.params.sysregWordLayout w with
    | error e => simp [hd] at h
    | ok i =>
      rw [hd] at h
      cases i with
      | mrsDspsr r =>
        obtain ⟨hh, u, hu, rfl⟩ := (inDebugState_next _ _ _).1 h
        exact .inl ⟨w, r, u, rfl, hd, hh, hu, rfl⟩
      | msrDspsr r =>
        obtain ⟨hh, u, hu, rfl⟩ := (inDebugState_next _ _ _).1 h
        obtain ⟨v, hv, rfl⟩ := Option.map_eq_some_iff.1 hu
        exact .inr (.inl ⟨w, r, v, rfl, hd, hh, hv, rfl⟩)
  | debugEntry => exact .inr (.inr (.inl ⟨rfl, h⟩))
  | debugExit p q => exact .inr (.inr (.inr (.inl ⟨p, q, rfl, h⟩)))
  | reset => exact .inr (.inr (.inr (.inr (.inl ⟨rfl, h⟩))))
  | setX n v =>
    refine .inr (.inr (.inr (.inr (.inr ⟨n, v, rfl, ?_⟩))))
    simpa [runAction, setXEvent, eq_comm] using h

/-- Everything one step can do where it answers a next state: nothing, or the head action of the schedule. -/
theorem step_next_cases (s t : State) (h : step s = .next t) :
    (s.schedule = [] ∧ t = s) ∨
      ∃ a rest, s.schedule = a :: rest ∧ runAction a { s with schedule := rest } = .next t := by
  simp only [step, runNext] at h
  cases hs : s.schedule with
  | nil => exact .inl ⟨rfl, by simpa [hs, eq_comm] using h⟩
  | cons a rest => exact .inr ⟨a, rest, rfl, by simpa [hs] using h⟩

end Sys2Proof.Machine
end

