-- ==== Sys2Proof/Laws/Flags.lean ====
section
/-!
SUPPORT. What Debug state entry saves, slice by slice, and what each exit restores, field by field.
-/
namespace Sys2Proof.Machine

variable (c : Params) (p : Pstate) (k : Nat)

@[simp] theorem saveA64_n : slice (saveA64 c p k) 31 1 = heldValue p.n k 31 := by
  simp [saveA64]

@[simp] theorem saveA64_z : slice (saveA64 c p k) 30 1 = heldValue p.z k 30 := by
  simp [saveA64]

@[simp] theorem saveA64_c : slice (saveA64 c p k) 29 1 = heldValue p.c k 29 := by
  simp [saveA64]

@[simp] theorem saveA64_v : slice (saveA64 c p k) 28 1 = heldValue p.v k 28 := by
  simp [saveA64]

@[simp] theorem saveA64_tco : slice (saveA64 c p k) 25 1 = if c.haveMte then heldValue p.tco k 25 else 0#1 := by
  simp [saveA64]

@[simp] theorem saveA64_dit : slice (saveA64 c p k) 24 1 = if c.haveDit then heldValue p.dit k 24 else 0#1 := by
  simp [saveA64]

@[simp] theorem saveA64_uao : slice (saveA64 c p k) 23 1 = if c.haveUao then heldValue p.uao k 23 else 0#1 := by
  simp [saveA64]

@[simp] theorem saveA64_pan : slice (saveA64 c p k) 22 1 = if c.havePan then heldValue p.pan k 22 else 0#1 := by
  simp [saveA64]

@[simp] theorem saveA64_ss : slice (saveA64 c p k) 21 1 = heldValue p.ss k 21 := by
  simp [saveA64]

@[simp] theorem saveA64_il : slice (saveA64 c p k) 20 1 = heldValue p.il k 20 := by
  simp [saveA64]

@[simp] theorem saveA64_ssbs : slice (saveA64 c p k) 12 1 = if c.haveSsbs then heldValue p.ssbs k 12 else 0#1 := by
  simp [saveA64]

@[simp] theorem saveA64_btype : slice (saveA64 c p k) 10 2 = if c.haveBti then heldValue p.btype k 10 else 0#2 := by
  simp [saveA64]

@[simp] theorem saveA64_d : slice (saveA64 c p k) 9 1 = heldValue p.d k 9 := by
  simp [saveA64]

@[simp] theorem saveA64_a : slice (saveA64 c p k) 8 1 = heldValue p.a k 8 := by
  simp [saveA64]

@[simp] theorem saveA64_i : slice (saveA64 c p k) 7 1 = heldValue p.i k 7 := by
  simp [saveA64]

@[simp] theorem saveA64_f : slice (saveA64 c p k) 6 1 = heldValue p.f k 6 := by
  simp [saveA64]

@[simp] theorem saveA64_el : slice (saveA64 c p k) 2 2 = heldValue p.el k 2 := by
  simp [saveA64]

@[simp] theorem saveA64_sp : slice (saveA64 c p k) 0 1 = heldValue p.sp k 0 := by
  simp [saveA64]

@[simp] theorem saveA64_upper : slice (saveA64 c p k) 32 32 = 0#32 := by
  simp [saveA64]

@[simp] theorem saveA64_res27 : slice (saveA64 c p k) 26 2 = 0#2 := by
  simp [saveA64]

@[simp] theorem saveA64_res19 : slice (saveA64 c p k) 13 7 = 0#7 := by
  simp [saveA64]

@[simp] theorem saveA64_res5 : slice (saveA64 c p k) 5 1 = 0#1 := by
  simp [saveA64]

@[simp] theorem saveA64_m4 : slice (saveA64 c p k) 4 1 = 0#1 := by
  simp [saveA64]

@[simp] theorem saveA64_m1 : slice (saveA64 c p k) 1 1 = 0#1 := by
  simp [saveA64]

/-- What Debug state entry writes has no bit with `Res0Eff` (10_state.md R69). -/
theorem saveA64_reserved : saveA64 c p k &&& res0Eff c = 0#64 := by
  unfold saveA64
  refine put_and_eq_zero _ _ _ _ ?_ (by simp [res0Eff])
  refine put_and_eq_zero _ _ _ _ ?_ (by simp [res0Eff])
  refine put_and_eq_zero _ _ _ _ ?_ (by simp [res0Eff])
  refine put_and_eq_zero _ _ _ _ ?_ (by simp [res0Eff])
  refine putIf_and_eq_zero _ _ _ _ _ ?_ (fun hb => by simp [res0Eff, hb])
  refine putIf_and_eq_zero _ _ _ _ _ ?_ (fun hb => by simp [res0Eff, hb])
  refine putIf_and_eq_zero _ _ _ _ _ ?_ (fun hb => by simp [res0Eff, hb])
  refine putIf_and_eq_zero _ _ _ _ _ ?_ (fun hb => by simp [res0Eff, hb])
  refine put_and_eq_zero _ _ _ _ ?_ (by simp [res0Eff])
  refine put_and_eq_zero _ _ _ _ ?_ (by simp [res0Eff])
  refine putIf_and_eq_zero _ _ _ _ _ ?_ (fun hb => by simp [res0Eff, hb])
  refine putIf_and_eq_zero _ _ _ _ _ ?_ (fun hb => by simp [res0Eff, hb])
  refine put_and_eq_zero _ _ _ _ ?_ (by simp [res0Eff])
  refine put_and_eq_zero _ _ _ _ ?_ (by simp [res0Eff])
  refine put_and_eq_zero _ _ _ _ ?_ (by simp [res0Eff])
  refine put_and_eq_zero _ _ _ _ ?_ (by simp [res0Eff])
  refine put_zero_and_eq_zero _ _ _ ?_
  refine put_and_eq_zero _ _ _ _ ?_ (by simp [res0Eff])
  refine put_and_eq_zero _ _ _ _ ?_ (by simp [res0Eff])
  exact BitVec.zero_and

variable (b : Bool) (d : Xword) (level : EL)

@[simp] theorem restoreA64_n : (restoreA64 c b d).n = .known (slice d 31 1) := rfl
@[simp] theorem restoreA64_z : (restoreA64 c b d).z = .known (slice d 30 1) := rfl
@[simp] theorem restoreA64_c : (restoreA64 c b d).c = .known (slice d 29 1) := rfl
@[simp] theorem restoreA64_v : (restoreA64 c b d).v = .known (slice d 28 1) := rfl
@[simp] theorem restoreA64_q : (restoreA64 c b d).q = .unk 1 := rfl
@[simp] theorem restoreA64_it : (restoreA64 c b d).it = .unk 8 := rfl
@[simp] theorem restoreA64_tco : (restoreA64 c b d).tco = ifHave c.haveMte (slice d 25 1) := rfl
@[simp] theorem restoreA64_dit : (restoreA64 c b d).dit = ifHave c.haveDit (slice d 24 1) := rfl
@[simp] theorem restoreA64_uao : (restoreA64 c b d).uao = ifHave c.haveUao (slice d 23 1) := rfl
@[simp] theorem restoreA64_ssbs : (restoreA64 c b d).ssbs = ifHave c.haveSsbs (slice d 12 1) := rfl
@[simp] theorem restoreA64_pan : (restoreA64 c b d).pan = ifHave c.havePan (slice d 22 1) := rfl
@[simp] theorem restoreA64_ss : (restoreA64 c b d).ss = ifHave b (slice d 21 1) := rfl
@[simp] theorem restoreA64_il : (restoreA64 c b d).il = .known (slice d 20 1) := rfl
@[simp] theorem restoreA64_ge : (restoreA64 c b d).ge = .unk 4 := rfl
@[simp] theorem restoreA64_btype : (restoreA64 c b d).btype = ifHave c.haveBti (slice d 10 2) := rfl
@[simp] theorem restoreA64_e : (restoreA64 c b d).e = .unk 1 := rfl
@[simp] theorem restoreA64_d : (restoreA64 c b d).d = .known (slice d 9 1) := rfl
@[simp] theorem restoreA64_a : (restoreA64 c b d).a = .known (slice d 8 1) := rfl
@[simp] theorem restoreA64_i : (restoreA64 c b d).i = .known (slice d 7 1) := rfl
@[simp] theorem restoreA64_f : (restoreA64 c b d).f = .known (slice d 6 1) := rfl
@[simp] theorem restoreA64_t : (restoreA64 c b d).t = .unk 1 := rfl
@[simp] theorem restoreA64_nRW : (restoreA64 c b d).nRW = .known 0#1 := rfl
@[simp] theorem restoreA64_m : (restoreA64 c b d).m = .unk 4 := rfl
@[simp] theorem restoreA64_el : (restoreA64 c b d).el = .known (slice d 2 2) := rfl
@[simp] theorem restoreA64_sp : (restoreA64 c b d).sp = .known (slice d 0 1) := rfl

@[simp] theorem restoreA32_n :
    (restoreA32 c level d).n = .known (slice d 31 1) := rfl
@[simp] theorem restoreA32_z :
    (restoreA32 c level d).z = .known (slice d 30 1) := rfl
@[simp] theorem restoreA32_c :
    (restoreA32 c level d).c = .known (slice d 29 1) := rfl
@[simp] theorem restoreA32_v :
    (restoreA32 c level d).v = .known (slice d 28 1) := rfl
@[simp] theorem restoreA32_q :
    (restoreA32 c level d).q = .known (slice d 27 1) := rfl
@[simp] theorem restoreA32_it :
    (restoreA32 c level d).it = .known (slice d 10 6 ++ slice d 25 2) := rfl
@[simp] theorem restoreA32_tco :
    (restoreA32 c level d).tco = .unk 1 := rfl
@[simp] theorem restoreA32_dit :
    (restoreA32 c level d).dit = ifHave c.haveDit (slice d 24 1) := rfl
@[simp] theorem restoreA32_uao :
    (restoreA32 c level d).uao = .unk 1 := rfl
@[simp] theorem restoreA32_ssbs :
    (restoreA32 c level d).ssbs = ifHave c.haveSsbs (slice d 23 1) := rfl
@[simp] theorem restoreA32_pan :
    (restoreA32 c level d).pan = ifHave c.havePan (slice d 22 1) := rfl
@[simp] theorem restoreA32_ss :
    (restoreA32 c level d).ss = .known (slice d 21 1) := rfl
@[simp] theorem restoreA32_il :
    (restoreA32 c level d).il = .known (slice d 20 1) := rfl
@[simp] theorem restoreA32_ge :
    (restoreA32 c level d).ge = .known (slice d 16 4) := rfl
@[simp] theorem restoreA32_btype :
    (restoreA32 c level d).btype = .unk 2 := rfl
@[simp] theorem restoreA32_e :
    (restoreA32 c level d).e = .known (effE c (slice d 9 1) level) := rfl
@[simp] theorem restoreA32_d :
    (restoreA32 c level d).d = .unk 1 := rfl
@[simp] theorem restoreA32_a :
    (restoreA32 c level d).a = .known (slice d 8 1) := rfl
@[simp] theorem restoreA32_i :
    (restoreA32 c level d).i = .known (slice d 7 1) := rfl
@[simp] theorem restoreA32_f :
    (restoreA32 c level d).f = .known (slice d 6 1) := rfl
@[simp] theorem restoreA32_t :
    (restoreA32 c level d).t = .known (slice d 5 1) := rfl
@[simp] theorem restoreA32_nRW :
    (restoreA32 c level d).nRW = .known 1#1 := rfl
@[simp] theorem restoreA32_m :
    (restoreA32 c level d).m = .known (slice d 0 4) := rfl
@[simp] theorem restoreA32_el :
    (restoreA32 c level d).el = .unk 2 := rfl
@[simp] theorem restoreA32_sp :
    (restoreA32 c level d).sp = .unk 1 := rfl

/-- The four bits of `M[3:0]` are `M[3:2]`, `M[1]` and `M[0]` (10_state.md R68). -/
theorem slice_m_parts : slice d 0 4 = slice d 2 2 ++ slice d 1 1 ++ slice d 0 1 := by
  apply BitVec.eq_of_getLsbD_eq
  intro i hi
  have : i = 0 ∨ i = 1 ∨ i = 2 ∨ i = 3 := by omega
  rcases this with rfl | rfl | rfl | rfl <;>
    simp only [BitVec.getLsbD_append, getLsbD_slice] <;> simp

/-- In view A64 the Exception level of `M[3:0]` is that of bits [3:2] of the register. -/
theorem a64ModeLevel_slice : a64ModeLevel (slice d 0 4) = elOfBits (slice d 2 2) := by
  unfold a64ModeLevel
  congr 1
  apply BitVec.eq_of_getLsbD_eq
  intro i hi
  have : 2 + i < 4 := by omega
  simp only [BitVec.getLsbD_extractLsb', getLsbD_slice]
  simp [hi, this]

end Sys2Proof.Machine
end

