-- ==== Sys2Proof/Laws/PerInstr.lean ====
section
/-!
SUPPORT. What holds of each instruction as syntax: its word lies in its row of spec/opcode_table.json.
-/
namespace Sys2Proof.Laws.TableRow

/-- The match of the instruction's row of spec/opcode_table.json. -/
def rowMatch : Instr → Iword
  | .mrsDspsr _ => 0xD53B4500#32
  | .msrDspsr _ => 0xD51B4500#32

/-- The instruction's word has its row's fixed bits, under the row's mask; the table's words are
those of the default layout. -/
def Statement (i : Instr) : Prop :=
  encode Config.sysregWordLayoutDefault i &&& 0xFFFFFFE0#32 = rowMatch i

theorem mrsDspsr (t : Xt) : Statement (.mrsDspsr t) := by
  cases t with
  | gpr n => revert n; unfold Statement; decide
  | r31 => unfold Statement; decide

theorem msrDspsr (t : Xt) : Statement (.msrDspsr t) := by
  cases t with
  | gpr n => revert n; unfold Statement; decide
  | r31 => unfold Statement; decide

end Sys2Proof.Laws.TableRow
end

