-- ==== Sys2Proof/Tests/Slice0.lean ====
section
/-!
SUPPORT. Tests of the model against 95_test_vectors.md (each test names its vector) and words written out from
30_encoding.md R93; then a witness for the hypotheses of each statement that has some.
-/
namespace Sys2Proof.Tests

open Sys2Proof.Machine Sys2Proof.Claims

/-! ### States to test on -/

def allEl : ElSet := ⟨true, true, true, true⟩

/-- CFG_ALL of 95_test_vectors.md section 0. -/
def cfgAll (policy : Res0Policy) : Params where
  haveDit          := true
  haveSsbs         := true
  havePan          := true
  haveUao          := true
  haveMte          := true
  haveBti          := true
  haveAArch32AnyEl := true
  beSupportedAt    := allEl
  leSupportedAt    := allEl
  implementedEl    := allEl
  res0Policy       := policy
  rt31IsZr         := true
  a32ModeEl        := Config.a32ModeElDefault
  sysregWordLayout := Config.sysregWordLayoutDefault

/-- CFG_MIN. -/
def cfgMin (policy : Res0Policy) : Params :=
  { cfgAll policy with
    haveDit := false, haveSsbs := false, havePan := false, haveUao := false, haveMte := false,
    haveBti := false, haveAArch32AnyEl := false, beSupportedAt := ⟨false, false, false, false⟩,
    implementedEl := ⟨true, true, false, false⟩ }

/-- CFG_A64ONLY. -/
def cfgA64Only (policy : Res0Policy) : Params :=
  { cfgAll policy with haveAArch32AnyEl := false }

/-- CFG_V80_A32. -/
def cfgV80A32 (policy : Res0Policy) : Params :=
  { cfgMin policy with haveAArch32AnyEl := true, beSupportedAt := allEl }

/-- CFG_LE_EL0. -/
def cfgLeEl0 (policy : Res0Policy) : Params :=
  { cfgAll policy with beSupportedAt := ⟨false, true, true, true⟩ }

/-- A state with the register holding `d` and every general register holding `v`. -/
def launch (c : Params) (halted : Bool) (d v : Xword) : State where
  params    := c
  dspsr     := .known d
  x         := Vector.replicate 31 (.known v)
  pstate    := .unk
  halted    := halted
  drawIndex := 0
  schedule  := []

/-- A known process state in AArch64 state, every field zero. -/
def pstateZero : Pstate where
  n := .known 0
  z := .known 0
  c := .known 0
  v := .known 0
  q := .known 0
  it := .known 0
  tco := .known 0
  dit := .known 0
  uao := .known 0
  ssbs := .known 0
  pan := .known 0
  ss := .known 0
  il := .known 0
  ge := .known 0
  btype := .known 0
  e := .known 0
  d := .known 0
  a := .known 0
  i := .known 0
  f := .known 0
  t := .known 0
  nRW := .known 0
  m := .known 0
  el := .known 0
  sp := .known 0

/-- The process state of vector E1. -/
def pstateE1 : Pstate :=
  { pstateZero with z := .known 1, c := .known 1, pan := .known 1, d := .known 1, a := .known 1,
                    i := .known 1, f := .known 1, el := .known 1, sp := .known 1 }

/-- Outside Debug state with a given process state, the register all ones. -/
def running (c : Params) (p : Pstate) : State :=
  { launch c false 0xFFFFFFFFFFFFFFFF#64 0#64 with pstate := p }

def answers (o : Host.Outcome State Fault Refusal) (p : State → Bool) : Bool :=
  match o with
  | .next t => p t
  | _ => false

/-! ### Decoding: words written out field by field from 30_encoding.md R91, R93 -/

theorem test_decode_mrs_x10 :
    decode Config.sysregWordLayoutDefault 0b11010101001110110100010100001010#32 = .ok (.mrsDspsr (.gpr 10)) := by decide

theorem test_decode_mrs_xzr :
    decode Config.sysregWordLayoutDefault 0b11010101001110110100010100011111#32 = .ok (.mrsDspsr .r31) := by decide

theorem test_decode_msr_x21 :
    decode Config.sysregWordLayoutDefault 0b11010101000110110100010100010101#32 = .ok (.msrDspsr (.gpr 21)) := by decide

theorem test_decode_msr_x30 :
    decode Config.sysregWordLayoutDefault 0b11010101000110110100010100011110#32 = .ok (.msrDspsr (.gpr 30)) := by decide

/-- 95_test_vectors.md section 2.7: the nearest words that are refused. -/
theorem test_decode_refuses_neighbours :
    let y := Config.sysregWordLayoutDefault
    decode y 0xD53B4520#32 = .error .notInThisSpec ∧ decode y 0xD53B4400#32 = .error .notInThisSpec ∧
      decode y 0xD5334500#32 = .error .notInThisSpec ∧ decode y 0xD53A4500#32 = .error .notInThisSpec ∧
      decode y 0xD503201F#32 = .error .notInThisSpec ∧ decode y 0#32 = .error .notInThisSpec := by
  decide

theorem test_table_word : decodeTableWord 32 0xD53B451E = some (.mrsDspsr (.gpr 30)) := by decide

/-! ### WellFormed: the ill-formed term of its one check -/

def noZr : Params := { cfgAll .stored with rt31IsZr := false }

theorem test_register31_is_ill_formed_without_zr :
    (Instr.mrsDspsr .r31).wellFormed noZr = false ∧ (Instr.msrDspsr .r31).wellFormed noZr = false ∧
      (Instr.mrsDspsr .r31).wellFormed (cfgAll .stored) = true ∧
      (Instr.msrDspsr (.gpr 30)).wellFormed noZr = true := by
  decide

/-- A layout with a field outside the word, and one with two fields that share a bit, are none. -/
theorem test_ill_formed_layouts :
    ¬ SysregWordLayout.WellFormed { Config.sysregWordLayoutDefault with fixedLo := 23 } ∧
      ¬ SysregWordLayout.WellFormed { Config.sysregWordLayoutDefault with op2Lo := 4 } := by
  exact ⟨fun h => absurd h.inWord (by decide), fun h => absurd h.apart (by decide)⟩

/-! ### The two instructions -/

/-- Vector R2v. -/
theorem test_mrs_x30 :
    answers (exec (.mrsDspsr (.gpr 30)) (launch (cfgAll .stored) true 0xF3F01FCD#64 7#64))
      (fun t => t.x[30] = .known 0xF3F01FCD#64 && t.x[29] = .known 7#64) = true := by
  decide

/-- Vector R4v. -/
theorem test_mrs_outside_debug_state :
    exec (.mrsDspsr (.gpr 5)) (launch (cfgAll .stored) false 0#64 0x1234#64) =
      .fault .undefined := by
  rfl

/-- Vector W5. -/
theorem test_msr_masks_reserved_bits :
    answers (exec (.msrDspsr (.gpr 4)) (launch (cfgMin .razWi) true 0#64 0xFFFFFFFFFFFFFFFF#64))
      (fun t => t.dspsr = .known 0xF03003CF#64) = true := by
  decide

/-- Vector W2. -/
theorem test_msr_xzr :
    answers (exec (.msrDspsr .r31) (launch (cfgAll .stored) true 0xF3F01FCD#64 7#64))
      (fun t => t.dspsr = .known 0#64) = true := by
  decide

/-- Vectors W3, W4, W6, W7, W10. -/
theorem test_write_mask :
    writeMask (cfgAll .stored) 0xFFFFFFFFFFFFFFFF#64 = 0xFFFFFFFFFFFFFFFF#64 ∧
      writeMask (cfgAll .razWi) 0xFFFFFFFFFFFFFFFF#64 = 0xFFFFFFFF#64 ∧
      writeMask (cfgA64Only .razWi) 0xFFFFFFFFFFFFFFFF#64 = 0xF3F01FCF#64 ∧
      writeMask (cfgV80A32 .razWi) 0xFFFFFFFFFFFFFFFF#64 = 0xFE3FFFFF#64 ∧
      writeMask (cfgMin .razWi) 0x200#64 = 0x200#64 := by
  decide

/-! ### Debug state entry -/

/-- Vector E1. -/
theorem test_entry_e1 :
    answers (debugEntry (running (cfgAll .stored) pstateE1))
      (fun t => t.dspsr = .known 0x604003C5#64 && t.halted) = true := by
  decide

/-- Vector E4. -/
theorem test_entry_e4 :
    answers (debugEntry (running (cfgAll .stored)
        { pstateZero with n := .known 1, ssbs := .known 1, btype := .known 2, el := .known 2 }))
      (fun t => t.dspsr = .known 0x80001808#64) = true := by
  decide

/-- Vector E8. -/
theorem test_entry_e8 :
    debugEntry (running (cfgAll .stored) { pstateZero with nRW := .known 1 }) =
      .refused .entryFromAArch32NotInSource := by
  rfl

/-! ### Debug state exit -/

/-- Vector X4. -/
theorem test_exit_x4 :
    answers (debugExit true false (launch (cfgAll .stored) true 0x80001808#64 0#64))
      (fun t => t.pstate.n = .known 1 && t.pstate.ssbs = .known 1 && t.pstate.btype = .known 2 &&
        t.pstate.el = .known 2 && t.pstate.sp = .known 0 && t.pstate.it = .unk 8 && !t.halted) = true := by
  decide

/-- Vector X9. -/
theorem test_exit_x9 :
    answers (debugExit true false (launch (cfgA64Only .stored) true 0x15#64 0#64))
      (fun t => t.pstate.nRW = .known 0 && t.pstate.el = .known 1 && t.pstate.sp = .known 1) = true := by
  decide

/-- Vector A1. -/
theorem test_exit_a1 :
    answers (debugExit true false (launch (cfgAll .stored) true 0x8A09A733#64 0#64))
      (fun t => t.pstate.it = .known 0xA5 && t.pstate.ge = .known 0b1001 && t.pstate.e = .known 1 &&
        t.pstate.q = .known 1 && t.pstate.t = .known 1 && t.pstate.m = .known 0b0011 &&
        t.pstate.nRW = .known 1 && t.pstate.d = .unk 1) = true := by
  decide

/-- Vectors A7 and A8. -/
theorem test_exit_a7_a8 :
    answers (debugExit true false (launch (cfgLeEl0 .stored) true 0x210#64 0#64))
        (fun t => t.pstate.e = .known 0) = true ∧
      answers (debugExit true false (launch (cfgLeEl0 .stored) true 0x213#64 0#64))
        (fun t => t.pstate.e = .known 1) = true := by
  decide

def isIllegalReturn (o : Host.Outcome State Fault Refusal) : Bool :=
  match o with
  | .fault (.illegalReturn _ _) => true
  | _ => false

/-- Vectors I1, I4, I6, I7, I9, I10. -/
theorem test_illegal_returns :
    isIllegalReturn (debugExit true false (launch (cfgAll .stored) true 0x1#64 0#64)) = true ∧
      isIllegalReturn (debugExit true false (launch (cfgAll .stored) true 0x14#64 0#64)) = true ∧
      isIllegalReturn (debugExit true false (launch (cfgMin .stored) true 0x9#64 0#64)) = true ∧
      isIllegalReturn (debugExit true false (launch (cfgV80A32 .stored) true 0x1A#64 0#64)) = true ∧
      isIllegalReturn (debugExit true false (launch (cfgAll .stored) true 0x4#64 0#64)) = false ∧
      isIllegalReturn (debugExit true true (launch (cfgAll .stored) true 0x5#64 0#64)) = true := by
  decide

/-! ### One step -/

/-- The host's word runs as the first instruction after reset. -/
theorem test_word_runs_after_reset :
    answers (step (State.reset.withFetchWord 32 0xD53B4500)) (fun t => !t.x[0].unknown) = true ∧
      answers (step (State.reset.withFetchWord 32 0xD51B4500)) (fun t => !t.dspsr.unknown) = true := by
  decide

/-! ### Witnesses: the hypotheses of the statements can be met -/

/-- In Debug state, the register and the general registers holding values. -/
def inDebug : State := launch (cfgAll .razWi) true 0x604003C5#64 0x80000000#64

/-- In Debug state just after reset: no register holds a value. -/
def inDebugUnknown : State := { State.reset with params := cfgAll .razWi }

/-- In Debug state where register number 31 is no operand. -/
def inDebugNoZr : State := launch noZr true 0#64 0#64

/-- A layout that is not the default: the two halves of the word swapped, and `L = 1` for a write. -/
def swappedLayout : SysregWordLayout where
  fixedBits := 0b1101010100#10
  fixedLo   := 6
  writeBit  := 1#1
  lLo       := 5
  op0Lo     := 3
  op1Lo     := 0
  crnLo     := 28
  crmLo     := 24
  op2Lo     := 21
  rtLo      := 16

theorem default_layout_wellFormed : Config.sysregWordLayoutDefault.WellFormed :=
  ⟨by decide, by decide⟩

theorem swapped_layout_wellFormed : swappedLayout.WellFormed :=
  ⟨by decide, by decide⟩

/-- The word 0xD51B4501 of `MSR DSPSR_EL0, X1` with its halves swapped, which in `swappedLayout` is a read. -/
theorem test_decode_swapped_layout :
    decode swappedLayout 0x4501D51B#32 = .ok (.mrsDspsr (.gpr 1)) ∧
      encode swappedLayout (.mrsDspsr (.gpr 1)) = 0x4501D51B#32 := by
  decide

/-- Also for DecodeOfEncode, and for SuppliedWordRunsNext and StepRefusesOtherWords, whose states have the
default layout. -/
theorem witness_EncodeOfDecode :
    Config.sysregWordLayoutDefault.WellFormed ∧ swappedLayout.WellFormed ∧
      decode Config.sysregWordLayoutDefault 0xD51B4500#32 = .ok (.msrDspsr (.gpr 0)) ∧
      inDebug.params.sysregWordLayout = Config.sysregWordLayoutDefault :=
  ⟨default_layout_wellFormed, swapped_layout_wellFormed, by decide, rfl⟩

/-- Each of the three outcomes. -/
theorem witness_MeaningsDoNotDependOnTheWordLayout :
    answers (exec (.mrsDspsr (.gpr 0)) inDebug) (fun _ => true) = true ∧
      exec (.mrsDspsr .r31) inDebugNoZr = .refused .register31NotZr ∧
      exec (.mrsDspsr (.gpr 0)) (running (cfgAll .stored) pstateE1) = .fault .undefined :=
  ⟨by decide, rfl, rfl⟩

theorem witness_StepRunsTheDecodedInstruction :
    (supplyWord 0xD53B4500#32 inDebug).schedule = .word 0xD53B4500#32 :: [] ∧
      decode Config.sysregWordLayoutDefault 0xD53B4500#32 = .ok (.mrsDspsr (.gpr 0)) ∧
      (Instr.mrsDspsr (.gpr 0)).wellFormed (supplyWord 0xD53B4500#32 inDebug).params = true := by
  decide

theorem witness_StepRefusesOtherWords :
    (supplyWord 0#32 inDebug).schedule = .word 0#32 :: [] ∧
      ∀ i : Instr, encode inDebug.params.sysregWordLayout i ≠ 0#32 := by
  refine ⟨rfl, fun i => ?_⟩
  cases i with
  | mrsDspsr t => cases t with
    | gpr n => revert n; decide
    | r31 => decide
  | msrDspsr t => cases t with
    | gpr n => revert n; decide
    | r31 => decide

theorem witness_StepRunsTheEvents :
    inDebug.schedule = [] ∧
      ({ inDebug with schedule := [.debugEntry] } : State).schedule = .debugEntry :: [] ∧
      ({ inDebug with schedule := [.debugExit true false] } : State).schedule =
        .debugExit true false :: [] ∧
      ({ inDebug with schedule := [.reset] } : State).schedule = .reset :: [] ∧
      ({ inDebug with schedule := [.setX 30 1] } : State).schedule = .setX 30 1 :: [] := by
  decide

/-- Also for ReadsAreIdempotent. -/
theorem witness_MrsDeliversTheRegister :
    inDebug.halted = true ∧ inDebug.dspsr = .known 0x604003C5#64 ∧ (0 : Fin 31) ≠ 30 := by decide

theorem witness_MrsOfUnknownRegisterIsFree :
    (0 : Fin 31) ≠ 30 ∧ inDebugUnknown.halted = true ∧ inDebugUnknown.dspsr.unknown = true := by
  decide

/-- Also for MsrFromRegister31WritesZero. -/
theorem witness_MrsToRegister31Discards :
    inDebug.halted = true ∧ inDebug.params.rt31IsZr = true := by decide

/-- Also for ReadReturnsTheLatestWrite; and for ZeroWrittenToReservedBitsReadsZero, by its last clause. -/
theorem witness_MsrWritesTheRegister :
    inDebug.halted = true ∧ inDebug.x[(30 : Fin 31)] = .known 0x80000000#64 ∧
      0x80000000#64 &&& res0Eff inDebug.params = 0#64 := by
  decide

theorem witness_MsrFromUnknownRegisterIsFree :
    inDebugUnknown.halted = true ∧ inDebugUnknown.x[(30 : Fin 31)].unknown = true := by decide

/-- Both sides of the equivalences, for each of the two. -/
theorem witness_Register31IsRefusedExactlyWithoutZr :
    inDebugNoZr.halted = true ∧
      exec (.mrsDspsr .r31) inDebugNoZr = .refused .register31NotZr ∧
      exec (.msrDspsr .r31) inDebugNoZr = .refused .register31NotZr :=
  ⟨rfl, rfl, rfl⟩

theorem witness_AccessDoesNotDependOnPstate :
    (Instr.mrsDspsr .r31).wellFormed inDebug.params = true ∧ inDebug.halted = true ∧
      (Instr.msrDspsr (.gpr 30)).wellFormed (running (cfgAll .razWi) pstateE1).params = true ∧
      (running (cfgAll .razWi) pstateE1).halted = false := by
  decide

/-- Also for MsrFrame: both instructions answer a next state. -/
theorem witness_MrsFrame :
    answers (exec (.mrsDspsr (.gpr 30)) inDebug) (fun _ => true) = true ∧
      answers (exec (.mrsDspsr .r31) inDebug) (fun _ => true) = true ∧
      answers (exec (.msrDspsr (.gpr 0)) inDebug) (fun _ => true) = true ∧
      answers (exec (.msrDspsr .r31) inDebug) (fun _ => true) = true := by
  decide

/-- The hypotheses of the clauses of InterruptMasksInViewA64: an entry that saves each mask, and an exit to
AArch64 state from a register value; its read/write clauses are those of `witness_MsrWritesTheRegister` and
`witness_MrsDeliversTheRegister`. -/
theorem witness_InterruptMasksInViewA64 :
    let s := running (cfgAll .razWi) pstateE1
    s.halted = false ∧ s.pstate.nRW = .known 0#1 ∧ s.pstate.a = .known 1#1 ∧ s.pstate.i = .known 1#1 ∧
      s.pstate.f = .known 1#1 ∧ inDebug.dspsr = .known 0x604003C5#64 ∧
      answers (debugExit true false inDebug) (fun t => t.pstate.nRW = .known 0#1) = true := by
  decide

/-- Also for ReadReturnsTheEntryValue, EntryThenExitRestoresPstate (all four), EntryFrame and the first
clause of AbsentFeaturesTakeNoPart. -/
theorem witness_EntryFromAArch64WritesViewA64 :
    let s := running (cfgMin .razWi) pstateE1
    s.halted = false ∧ heldValue s.pstate.nRW s.drawIndex 4 = 0#1 ∧
      elSetHas s.params.implementedEl (elOfBits (heldValue s.pstate.el s.drawIndex 2)) = true ∧
      ¬ (heldValue s.pstate.el s.drawIndex 2 = 0#2 ∧ heldValue s.pstate.sp s.drawIndex 0 = 1#1) ∧
      answers (debugEntry s) (fun _ => true) = true ∧ s.params.haveMte = false := by
  decide

theorem witness_EntryIsRefusedWhereItHasNoMeaning :
    inDebug.halted = true ∧
      (running (cfgAll .stored) { pstateZero with nRW := .known 1 }).halted = false ∧
      heldValue (running (cfgAll .stored) { pstateZero with nRW := .known 1 }).pstate.nRW 0 4 = 1#1 := by
  decide

/-- Also for the exit clause of FieldOfViewA64 (ConditionFlagsInViewA64, MasksAndIllegalStateInViewA64;
the entry and read/write clauses have witnesses above), ExitFrame and AbsentFeaturesTakeNoPart. -/
theorem witness_ExitToAArch64CopiesViewA64 :
    inDebug.halted = true ∧ readDspsr inDebug = 0x604003C5#64 ∧
      ExitsToAArch64 inDebug 0x604003C5#64 ∧
      answers (debugExit true false inDebug) (fun _ => true) = true :=
  ⟨rfl, rfl, ⟨by decide, by decide, by decide⟩, by decide⟩

/-- A register value in view A32, to Supervisor mode: vector A1. -/
def toA32 : State := launch (cfgAll .stored) true 0x8A09A733#64 0#64

/-- Also for the exit clause of FieldOfViewA32 (ConditionFlagsInViewA32) and for ExitForcesEndianness. -/
theorem witness_ExitToAArch32CopiesViewA32 :
    toA32.halted = true ∧ readDspsr toA32 = 0x8A09A733#64 ∧
      ExitsToAArch32 toA32 0x8A09A733#64 .supervisor ∧
      answers (debugExit true false toA32) (fun _ => true) = true :=
  ⟨rfl, rfl, ⟨rfl, by decide, by decide, by decide⟩, by decide⟩

/-- The exit clause of FlagsCopiedFromViewA32; the rest as for InterruptMasksInViewA64. -/
theorem witness_FlagsCopiedFromViewA32 :
    toA32.dspsr = .known 0x8A09A733#64 ∧
      answers (debugExit true false toA32) (fun t => t.pstate.nRW = .known 1#1) = true := by
  decide

/-- A completed exit and an illegal return event (`EL0h`). -/
theorem witness_ExitChangesOnlyPstateAndHalted :
    answers (debugExit true false inDebug) (fun _ => true) = true ∧
      isIllegalReturn (debugExit true false (launch (cfgAll .stored) true 0x1#64 0#64)) = true := by
  decide

/-- The three clauses of ExitForcesEndianness, each at a state of its own: no big-endian at EL0, no
little-endian at EL1, both. -/
theorem witness_ExitForcesEndianness :
    answers (debugExit true false (launch (cfgLeEl0 .stored) true 0x210#64 0#64))
        (fun t => t.pstate.e = .known 0) = true ∧
      answers (debugExit true false
          (launch { cfgAll .stored with leSupportedAt := ⟨true, false, true, true⟩ } true 0x13#64 0#64))
        (fun t => t.pstate.e = .known 1) = true ∧
      answers (debugExit true false (launch (cfgAll .stored) true 0x13#64 0#64))
        (fun t => t.pstate.e = .known 0) = true := by
  decide

theorem witness_IllegalReturnExactly : inDebug.halted = true ∧ toA32.halted = true := by decide

theorem witness_ExitIsNotEnabledOutsideDebugState :
    (running (cfgAll .stored) pstateE1).halted = false := by decide

/-- Each of the three outcomes: a completed exit, an illegal return event (`EL0h`), a refusal. -/
theorem witness_BitFourHasNoEffectWithoutAArch32 :
    (launch (cfgA64Only .stored) true 0#64 0#64).params.haveAArch32AnyEl = false ∧
      answers (debugExit true false
          { launch (cfgA64Only .stored) true 0#64 0#64 with dspsr := .known (put 4 1#1 0x5#64) })
        (fun _ => true) = true ∧
      isIllegalReturn (debugExit true false
          { launch (cfgA64Only .stored) true 0#64 0#64 with dspsr := .known (put 4 1#1 0x1#64) }) = true ∧
      (running (cfgA64Only .stored) pstateE1).params.haveAArch32AnyEl = false ∧
      (running (cfgA64Only .stored) pstateE1).halted = false := by
  decide

/-- Vector X6 against the same value with the reserved ones cleared. -/
theorem witness_ReservedBitsDoNotReachPstate :
    0x6C0E03C5#64 &&& ~~~(res0ViewA64 (cfgAll .stored)) =
        0x600003C5#64 &&& ~~~(res0ViewA64 (cfgAll .stored)) ∧
      slice 0x6C0E03C5#64 4 1 = 0#1 ∧ slice 0x600003C5#64 4 1 = 0#1 ∧
      answers (debugExit true false
          { launch (cfgAll .stored) true 0#64 0#64 with dspsr := .known 0x6C0E03C5#64 })
        (fun _ => true) = true := by
  decide

/-- A state outside Debug state that meets the invariant, in AArch64 state at EL1h. -/
theorem witness_UntouchedRegisterExitsLegally :
    (running (cfgAll .stored) pstateE1).Inv ∧ (running (cfgAll .stored) pstateE1).halted = false ∧
      (running (cfgAll .stored) pstateE1).pstate.nRW = .known 0#1 := by
  refine ⟨⟨fun h => ?_, fun n h => ?_, ?_, fun h => ?_, fun h => ?_, ?_, fun _ => ?_, fun h => ?_⟩,
    rfl, rfl⟩
  · cases h
  · simp [running, launch, Held.known] at h
  · constructor <;> exact fun h => by cases h
  · cases h
  · cases h
  · constructor <;> exact fun h => by cases h
  · exact ⟨1#2, 1#1, rfl, rfl, by decide, by decide⟩
  · cases h

/-- Steps that write the register, enter and leave Debug state, change `PSTATE` and change a general
register: the hypotheses of StepKeepsTheParameters, OnlyThreeStepsWriteTheRegister,
OnlyEventsEnterOrLeaveDebugState, OnlyEventsChangePstate and OnlyItsOwnWritersChangeARegister, and of
StepKeepsTheInvariant by
`witness_UntouchedRegisterExitsLegally`. -/
theorem witness_whole_machine :
    answers (step { running (cfgAll .stored) pstateE1 with schedule := [.debugEntry] })
        (fun t => t.dspsr ≠ .known 0xFFFFFFFFFFFFFFFF#64 && t.halted && t.pstate ≠ pstateE1) = true ∧
      answers (step { inDebug with schedule := [.debugExit true false] })
        (fun t => !t.halted && t.pstate ≠ .unk) = true ∧
      answers (step (supplyWord 0xD53B4500#32 inDebug))
        (fun t => t.x[(0 : Fin 31)] ≠ inDebug.x[(0 : Fin 31)]) = true ∧
      answers (step (supplyWord 0xD51B4501#32 inDebug)) (fun t => t.dspsr ≠ inDebug.dspsr) = true ∧
      answers (step { inDebug with schedule := [.setX 30 1] })
        (fun t => t.x[(30 : Fin 31)] = .known 1#64) = true := by
  decide

/-- Both faults happen. -/
theorem witness_TheTwoAbnormalOutcomes :
    step (supplyWord 0xD53B4500#32 (running (cfgAll .stored) pstateE1)) = .fault .undefined ∧
      isIllegalReturn (step { launch (cfgAll .stored) true 0x1#64 0#64 with
        schedule := [.debugExit true false] }) = true := by
  exact ⟨rfl, by decide⟩

end Sys2Proof.Tests
end

section
/-!
The fields of `DSPSR_EL0` that every implementation has (10_state.md): what the two accesses, Debug state entry
and Debug state exit do to one such field where the registers hold values.
-/
namespace Sys2Proof.Proofs

open Sys2Proof.Machine Sys2Proof.Claims

/-! ### The accesses to registers that hold a value -/

theorem readDspsr_of_known {s : State} {d : Xword} (h : s.dspsr = .known d) : readDspsr s = d := by
  simp [readDspsr, h]

theorem readX_of_known {s : State} {n : Fin 31} {v : Xword} (h : s.x[n] = .known v) : readX s n = v := by
  rw [readX, h, heldValue_known]

/-- `MRS` in Debug state, of a register that holds a value (41_sysreg_access.md R131). -/
theorem exec_mrsDspsr_gpr {s : State} {d : Xword} (n : Fin 31) (halted : s.halted = true)
    (held : s.dspsr = .known d) :
    exec (.mrsDspsr (.gpr n)) s = .next (advance (writeX s n d)) := by
  have written : writeOperand s (readDspsr s) (.gpr n) = some (writeX s n d) := by
    simp only [writeOperand, readDspsr_of_known held]
  exact (inDebugState_next _ _ _).2 ⟨halted, _, written, rfl⟩

/-- `MSR` in Debug state, from a general register that holds a value (41_sysreg_access.md R132). -/
theorem exec_msrDspsr_gpr {s : State} {n : Fin 31} {v : Xword} (halted : s.halted = true)
    (held : s.x[n] = .known v) :
    exec (.msrDspsr (.gpr n)) s = .next (advance (writeDspsr s v)) := by
  have written : (readOperand s (.gpr n)).map (writeDspsr s) = some (writeDspsr s v) := by
    simp only [readOperand, readX_of_known held, Option.map_some]
  exact (inDebugState_next _ _ _).2 ⟨halted, _, written, rfl⟩

/-! ### Where an exit goes -/

/-- A completed exit leaves the `PSTATE` of view A64 or that of view A32 (40_debug_state_transfer.md R105). -/
theorem debugExit_pstate_cases {s t : State} {ssCopy other : Bool} {d : Xword}
    (held : s.dspsr = .known d) (exit : debugExit ssCopy other s = .next t) :
    t.pstate = restoreA64 s.params ssCopy d ∨ ∃ level, t.pstate = restoreA32 s.params level d := by
  obtain ⟨-, -, target, -, -, rfl⟩ := (debugExit_next _ _ _ _).1 exit
  rw [readDspsr_of_known held]
  cases target with
  | aarch64 => exact .inl rfl
  | aarch32 mode => exact .inr ⟨a32ModeLevel s.params mode, rfl⟩

theorem debugExit_pstate_of_aarch64 {s t : State} {ssCopy other : Bool} {d : Xword}
    (held : s.dspsr = .known d) (exit : debugExit ssCopy other s = .next t)
    (nRW : t.pstate.nRW = .known 0#1) : t.pstate = restoreA64 s.params ssCopy d := by
  obtain h | ⟨level, h⟩ := debugExit_pstate_cases held exit
  · exact h
  · rw [h, restoreA32_nRW] at nRW
    exact absurd nRW (by decide)

theorem debugExit_pstate_of_aarch32 {s t : State} {ssCopy other : Bool} {d : Xword}
    (held : s.dspsr = .known d) (exit : debugExit ssCopy other s = .next t)
    (nRW : t.pstate.nRW = .known 1#1) : ∃ level, t.pstate = restoreA32 s.params level d := by
  obtain h | h := debugExit_pstate_cases held exit
  · rw [h, restoreA64_nRW] at nRW
    exact absurd nRW (by decide)
  · exact h

/-! ### One field, from what the views say of it -/

section
variable {lo w : Nat} {get : Pstate → Held w}

/-- A field whose bits view A64 saves from `get` takes the value `get` holds. -/
theorem takesTheHeldValue_of_saveA64
    (saved : ∀ c p k, slice (saveA64 c p k) lo w = heldValue (get p) k lo) :
    TakesTheHeldValue lo get := by
  intro s v running nRW held
  have nRW_zero : heldValue s.pstate.nRW s.drawIndex 4 = 0#1 := by rw [nRW, heldValue_known]
  refine ⟨_, _, (debugEntry_next _ _).2 ⟨running, nRW_zero, rfl⟩, rfl, ?_⟩
  rw [saved, held, heldValue_known]

theorem givesTheFieldItsBits_of_restoreA64
    (restored : ∀ c ssCopy d, get (restoreA64 c ssCopy d) = .known (slice d lo w)) :
    GivesTheFieldItsBits 0#1 lo get := by
  intro s t d ssCopy other held exit nRW
  rw [debugExit_pstate_of_aarch64 held exit nRW, restored]

theorem givesTheFieldItsBits_of_restoreA32
    (restored : ∀ c level d, get (restoreA32 c level d) = .known (slice d lo w)) :
    GivesTheFieldItsBits 1#1 lo get := by
  intro s t d ssCopy other held exit nRW
  obtain ⟨level, h⟩ := debugExit_pstate_of_aarch32 held exit nRW
  rw [h, restored]

/-- A field without a `Res0Eff` bit on any implementation is written whole and read back
(41_sysreg_access.md R133). -/
theorem writtenAndRead_of_not_reserved (free : ∀ c, slice (res0Eff c) lo w = 0#w) :
    WrittenAndRead lo w := by
  constructor
  · intro s n v halted held
    exact ⟨_, _, exec_msrDspsr_gpr halted held, rfl, slice_writeMask _ _ _ _ (free _)⟩
  · intro s n d halted held
    exact ⟨_, d, exec_mrsDspsr_gpr n halted held, writeX_x_same s n d, rfl⟩

end

theorem unknownAfterReset : UnknownAfterReset :=
  fun _ => ⟨_, rfl, rfl⟩

/-! ### The fields of 10_state.md -/

/-- The bits with `Res0Eff` lie in [63:32], [27:22], [19:10] and [5:4] on every implementation (10_state.md R69),
so no condition flag and no interrupt mask is among them. -/
theorem slice_res0Eff_of_never_reserved (c : Params) (lo : Nat)
    (h : 6 ≤ lo ∧ lo ≤ 9 ∨ 20 ≤ lo ∧ lo ≤ 21 ∨ 28 ≤ lo ∧ lo ≤ 31) :
    slice (res0Eff c) lo 1 = 0#1 := by
  have apart (b : Bool) (lo' w' : Nat) (h' : lo + 1 ≤ lo' ∨ lo' + w' ≤ lo) :
      slice (spanIf b lo' w') lo 1 = 0#1 := slice_spanIf_apart b lo' w' lo 1 h'
  have upper : slice (span 32 32) lo 1 = 0#1 := slice_span_apart 32 32 lo 1 (by omega)
  simp (disch := omega) only [res0Eff, slice_or, upper, apart, BitVec.or_self]

/-- Settles O55. Each mask is a bit that view A64 saves and restores and that is never reserved. -/
theorem interruptMasksInViewA64 : Obligations.InterruptMasksInViewA64 := by
  refine ⟨⟨?_, ?_, ?_⟩, ⟨?_, ?_, ?_⟩, ⟨?_, ?_, ?_⟩, unknownAfterReset⟩
  · exact takesTheHeldValue_of_saveA64 saveA64_a
  · exact givesTheFieldItsBits_of_restoreA64 restoreA64_a
  · exact writtenAndRead_of_not_reserved fun c => slice_res0Eff_of_never_reserved c 8 (by decide)
  · exact takesTheHeldValue_of_saveA64 saveA64_i
  · exact givesTheFieldItsBits_of_restoreA64 restoreA64_i
  · exact writtenAndRead_of_not_reserved fun c => slice_res0Eff_of_never_reserved c 7 (by decide)
  · exact takesTheHeldValue_of_saveA64 saveA64_f
  · exact givesTheFieldItsBits_of_restoreA64 restoreA64_f
  · exact writtenAndRead_of_not_reserved fun c => slice_res0Eff_of_never_reserved c 6 (by decide)

/-- Settles O56. Each flag is a bit that view A32 restores and that is never reserved. -/
theorem flagsCopiedFromViewA32 : Obligations.FlagsCopiedFromViewA32 := by
  refine ⟨⟨?_, ?_⟩, ⟨?_, ?_⟩, ⟨?_, ?_⟩, ⟨?_, ?_⟩, unknownAfterReset⟩
  · exact givesTheFieldItsBits_of_restoreA32 fun c level d => restoreA32_n c d level
  · exact writtenAndRead_of_not_reserved fun c => slice_res0Eff_of_never_reserved c 31 (by decide)
  · exact givesTheFieldItsBits_of_restoreA32 fun c level d => restoreA32_z c d level
  · exact writtenAndRead_of_not_reserved fun c => slice_res0Eff_of_never_reserved c 30 (by decide)
  · exact givesTheFieldItsBits_of_restoreA32 fun c level d => restoreA32_c c d level
  · exact writtenAndRead_of_not_reserved fun c => slice_res0Eff_of_never_reserved c 29 (by decide)
  · exact givesTheFieldItsBits_of_restoreA32 fun c level d => restoreA32_v c d level
  · exact writtenAndRead_of_not_reserved fun c => slice_res0Eff_of_never_reserved c 28 (by decide)

end Sys2Proof.Proofs
end

section
/-!
Which System register moves are an access to `DSPSR_EL0` (30_encoding.md R91).
-/
namespace Sys2Proof.Proofs

open Sys2Proof.Claims

/-- The decoder's test of the selecting fields is the spec's. -/
theorem selectsDspsr_iff (m : SysregMove) : m.selectsDspsr = true ↔ HasTheFiveValues m := by
  simp only [SysregMove.selectsDspsr, HasTheFiveValues, Bool.and_eq_true, decide_eq_true_eq, and_assoc]

/-- The direction bit and the register number choose which access a move is, not whether it is one. -/
theorem exists_instrOfMove_eq_ok_iff (m : SysregMove) :
    (∃ i, instrOfMove m = .ok i) ↔ m.selectsDspsr = true := by
  unfold instrOfMove
  constructor
  · rintro ⟨i, h⟩
    by_contra unselected
    rw [if_neg unselected] at h
    cases h
  · intro selected
    rw [if_pos selected]
    by_cases read : m.l = 1#1
    · exact ⟨_, if_pos read⟩
    · exact ⟨_, if_neg read⟩

theorem hasTheFiveValues_moveOfInstr (i : Instr) : HasTheFiveValues (moveOfInstr i) := by
  cases i with
  | mrsDspsr t => exact ⟨rfl, rfl, rfl, rfl, rfl⟩
  | msrDspsr t => exact ⟨rfl, rfl, rfl, rfl, rfl⟩

/-- Settles O4. The verdict on a move asks only for the five values, and the move of either access carries
them. -/
theorem fiveFieldsSelectTheRegister : Obligations.FiveFieldsSelectTheRegister := by
  constructor
  · intro m
    rw [exists_instrOfMove_eq_ok_iff, selectsDspsr_iff]
  · intro t
    exact ⟨hasTheFiveValues_moveOfInstr (.mrsDspsr t), hasTheFiveValues_moveOfInstr (.msrDspsr t)⟩

end Sys2Proof.Proofs
end

section
/-!
What Debug state exit leaves as it was (40_debug_state_transfer.md R119).
-/
namespace Sys2Proof.Proofs

open Sys2Proof.Machine Sys2Proof.Claims

/-- A completed exit and an illegal return event each leave the state before with `halted` clear, some `PSTATE`
and the next draw. -/
theorem debugExit_leaves {s t : State} {ssCopy other : Bool}
    (exit : debugExit ssCopy other s = .next t ∨
      ∃ d, debugExit ssCopy other s = .fault (.illegalReturn d t)) :
    ∃ pstate, t = advance { s with halted := false, pstate := pstate } := by
  obtain completed | ⟨d, illegal⟩ := exit
  · obtain ⟨-, -, _, -, -, left⟩ := (debugExit_next _ _ _ _).1 completed
    exact ⟨_, left⟩
  · obtain ⟨-, fault, -⟩ := (debugExit_fault _ _ _ _).1 illegal
    injection fault with _ left
    exact ⟨.unk, left⟩

/-- Settles O54. The state left differs from the state before in `halted`, `PSTATE` and the draw counter
only. -/
theorem exitChangesOnlyPstateAndHalted : Obligations.ExitChangesOnlyPstateAndHalted := by
  intro s t p q exit
  obtain ⟨_, rfl⟩ := debugExit_leaves exit
  exact ⟨rfl, rfl, rfl⟩

end Sys2Proof.Proofs
end

section
/-!
The decoder and the encoder (30_encoding.md): under a well-formed word layout the words that decode are exactly
the encodings of the two instructions.
-/
namespace Sys2Proof.Proofs

open Sys2Proof.Claims

theorem xtOfNumber_numberOfXt (t : Xt) : xtOfNumber (numberOfXt t) = t := by
  cases t with
  | gpr n =>
    have in_range : (BitVec.ofNat 5 n.val).toNat = n.val := by
      rw [BitVec.toNat_ofNat, Nat.mod_eq_of_lt (by omega)]
    simp [xtOfNumber, numberOfXt, in_range]
  | r31 => rfl

/-- Each instruction stands for one decoded form. -/
theorem instrOfMove_eq_ok_iff (m : SysregMove) (i : Instr) :
    instrOfMove m = .ok i ↔ m = moveOfInstr i := by
  constructor
  · intro verdict
    have selected := (exists_instrOfMove_eq_ok_iff m).1 ⟨i, verdict⟩
    rw [instrOfMove, if_pos selected] at verdict
    obtain ⟨l, op0, op1, crn, crm, op2, rt⟩ := m
    obtain ⟨rfl, rfl, rfl, rfl, rfl⟩ := (selectsDspsr_iff _).1 selected
    obtain rfl | rfl : l = 0#1 ∨ l = 1#1 := BitVec.eq_zero_or_eq_one l
    · obtain rfl : .msrDspsr (xtOfNumber rt) = i := by simpa using verdict
      simp [moveOfInstr]
    · obtain rfl : .mrsDspsr (xtOfNumber rt) = i := by simpa using verdict
      simp [moveOfInstr]
  · rintro rfl
    have selected := (selectsDspsr_iff _).2 (hasTheFiveValues_moveOfInstr i)
    rw [instrOfMove, if_pos selected]
    cases i <;> simp [moveOfInstr, xtOfNumber_numberOfXt]

theorem decode_eq_ok_iff {y : SysregWordLayout} (wf : y.WellFormed) (w : Iword) (i : Instr) :
    decode y w = .ok i ↔ encode y i = w := by
  have of_encode (j : Instr) : decode y (encode y j) = .ok j := by
    obtain ⟨op0, -⟩ := hasTheFiveValues_moveOfInstr j
    have op0_msb : (moveOfInstr j).op0.msb = true := by rw [op0]; decide
    rw [decode, encode, sysregMoveOf_wordOfSysregMove wf _ op0_msb]
    exact (instrOfMove_eq_ok_iff _ _).2 rfl
  constructor
  · intro decoded
    unfold decode at decoded
    split at decoded
    · next m read =>
      obtain rfl := (instrOfMove_eq_ok_iff m i).1 decoded
      exact wordOfSysregMove_of_sysregMoveOf wf w _ read
    · cases decoded
  · rintro rfl
    exact of_encode i

/-- Settles O2. The encoding of an instruction is a word that decodes to it. -/
theorem decodeOfEncode : Obligations.DecodeOfEncode :=
  fun _ _ wf => (decode_eq_ok_iff wf _ _).2 rfl

/-- Settles O3. No word decodes to an instruction but its encoding. -/
theorem encodeOfDecode : Obligations.EncodeOfDecode :=
  fun _ _ _ wf => (decode_eq_ok_iff wf _ _).1

/-- Settles O1, by running the decoder on each word. -/
theorem wordsOfTheTableDecode : Obligations.WordsOfTheTableDecode := by
  unfold Obligations.WordsOfTheTableDecode
  decide

/-- Settles O57. The register number stands in the low five bits, which the rest of the word leaves zero. -/
theorem wordsUnderTheDefaultLayout : Obligations.WordsUnderTheDefaultLayout := by
  refine ⟨⟨by decide, by decide⟩, rfl, fun t => ?_⟩
  simp only [encode, moveOfInstr, numberOfXt_xtOfNumber]
  revert t
  decide

end Sys2Proof.Proofs
end

section
/-!
One step: the head of the schedule is done on the state without it (60_exceptions.md section 4).
-/
namespace Sys2Proof.Proofs

open Sys2Proof.Machine

theorem step_of_schedule {s : State} {a : Action} {rest : List Action} (head : s.schedule = a :: rest) :
    step s = runAction a { s with schedule := rest } := by
  simp only [step, runNext, head]

theorem runWord_of_decode {s : State} {w : Iword} {i : Instr}
    (decoded : decode s.params.sysregWordLayout w = .ok i) : runWord w s = exec i s := by
  simp only [runWord, decoded]

theorem runWord_of_not_decode {s : State} {w : Iword}
    (undecoded : ∀ i, decode s.params.sysregWordLayout w ≠ .ok i) :
    runWord w s = .refused .notInThisSpec := by
  unfold runWord
  split
  · next i decoded => exact absurd decoded (undecoded i)
  · rfl

theorem tableWord_toNat (w : Iword) : tableWord 32 w.toNat = w := by
  rw [tableWord, Nat.mod_eq_of_lt w.isLt, BitVec.ofNat_toNat, BitVec.setWidth_eq]

/-- Settles O5. Well-formedness plays no part: an ill-formed operand is refused by `exec`. -/
theorem stepRunsTheDecodedInstruction : Obligations.StepRunsTheDecodedInstruction := by
  intro s w rest i head decoded _
  rw [step_of_schedule head]
  exact runWord_of_decode decoded

/-- Settles O6. The word supplied heads the schedule, and it decodes to the instruction it encodes. -/
theorem suppliedWordRunsNext : Obligations.SuppliedWordRunsNext := by
  intro s i wf
  have decoded := (decode_eq_ok_iff wf (encode s.params.sysregWordLayout i) i).2 rfl
  rw [State.withFetchWord, tableWord_toNat, step_of_schedule (supplyWord_schedule _ _)]
  exact runWord_of_decode decoded

/-- Settles O7. A word that decoded would be the encoding of an instruction. -/
theorem stepRefusesOtherWords : Obligations.StepRefusesOtherWords := by
  intro s w rest wf head other
  rw [step_of_schedule head]
  exact runWord_of_not_decode fun i decoded => other i ((decode_eq_ok_iff wf w i).1 decoded)

/-- Settles O8. Each event is the head of its schedule. -/
theorem stepRunsTheEvents : Obligations.StepRunsTheEvents := by
  intro s
  refine ⟨fun idle => by simp only [step, runNext, idle], fun rest => ⟨?_, ?_, ?_, ?_⟩⟩
  · exact step_of_schedule
  · exact fun p q => step_of_schedule
  · exact step_of_schedule
  · exact fun n v => step_of_schedule

end Sys2Proof.Proofs
end

section
/-!
The two instructions (41_sysreg_access.md), each through its effect on the state in Debug state.
-/
namespace Sys2Proof.Proofs

open Sys2Proof.Machine

/-! ### The effect of an instruction -/

/-- What an instruction does to the state in Debug state; none where the operand is no register of the
implementation. -/
def effect (s : State) : Instr → Option State
  | .mrsDspsr t => writeOperand s (readDspsr s) t
  | .msrDspsr t => (readOperand s t).map (writeDspsr s)

/-- Both instructions are guarded alike (41_sysreg_access.md R130). -/
theorem exec_eq (i : Instr) (s : State) : exec i s = inDebugState s (effect s i) := by
  cases i with
  | mrsDspsr t => rfl
  | msrDspsr t => rfl

theorem inDebugState_refused (s : State) (effect : Option State) (r : Refusal) :
    inDebugState s effect = .refused r ↔
      s.halted = true ∧ effect = none ∧ r = .register31NotZr := by
  cases hh : s.halted <;> cases effect <;> simp [inDebugState, hh, raiseUndefined, eq_comm]

theorem effect_eq_none_iff (s : State) (i : Instr) :
    effect s i = none ↔ i.operand = .r31 ∧ s.params.rt31IsZr = false := by
  cases i with
  | mrsDspsr t => cases t <;> simp [effect, writeOperand, Instr.operand]
  | msrDspsr t => cases t <;> simp [effect, readOperand, Instr.operand]

theorem exists_effect_of_wellFormed {s : State} {i : Instr} (wf : i.wellFormed s.params = true) :
    ∃ t, effect s i = some t := by
  rw [← Option.isSome_iff_exists, ← Option.ne_none_iff_isSome, Ne, effect_eq_none_iff]
  rintro ⟨operand, zr⟩
  simp [Instr.wellFormed, operand, Xt.usable, zr] at wf

/-- Settles O15. The guard is the only way to a fault, and it comes before the operand. -/
theorem accessIsUndefinedExactlyOutsideDebugState :
    Obligations.AccessIsUndefinedExactlyOutsideDebugState := by
  intro i s
  rw [exec_eq, inDebugState_fault, and_iff_left rfl]

/-- Settles O16. Past the guard an instruction is refused exactly where it has no effect. -/
theorem register31IsRefusedExactlyWithoutZr : Obligations.Register31IsRefusedExactlyWithoutZr := by
  intro i s halted
  rw [exec_eq, inDebugState_refused, effect_eq_none_iff]
  simp only [halted, true_and, and_true]

/-! ### State the instructions do not look at -/

/-- The state with another `PSTATE` and another word layout. -/
def withPstateAndLayout (p : Pstate → Pstate) (y : SysregWordLayout → SysregWordLayout) (s : State) : State :=
  { s with pstate := p s.pstate, params := { s.params with sysregWordLayout := y s.params.sysregWordLayout } }

/-- An outcome with its next state changed. -/
def mapNext (f : State → State) : Host.Outcome State Fault Refusal → Host.Outcome State Fault Refusal
  | .next t => .next (f t)
  | .fault r => .fault r
  | .refused r => .refused r

variable (p : Pstate → Pstate) (y : SysregWordLayout → SysregWordLayout)

theorem effect_withPstateAndLayout (s : State) (i : Instr) :
    effect (withPstateAndLayout p y s) i = (effect s i).map (withPstateAndLayout p y) := by
  cases i with
  | mrsDspsr t =>
    cases t with
    | gpr n => rfl
    | r31 => cases zr : s.params.rt31IsZr <;> simp [effect, writeOperand, withPstateAndLayout, zr]
  | msrDspsr t =>
    cases t with
    | gpr n => rfl
    | r31 =>
      cases zr : s.params.rt31IsZr <;> simp [effect, readOperand, withPstateAndLayout, zr]
      rfl

/-- The instructions neither look at `PSTATE` and the word layout nor change them. -/
theorem exec_withPstateAndLayout (i : Instr) (s : State) :
    exec i (withPstateAndLayout p y s) = mapNext (withPstateAndLayout p y) (exec i s) := by
  have same_halted : (withPstateAndLayout p y s).halted = s.halted := rfl
  rw [exec_eq, exec_eq, effect_withPstateAndLayout]
  unfold inDebugState
  rw [same_halted]
  cases s.halted with
  | false => rfl
  | true => cases effect s i <;> rfl

/-- Settles O17. The outcome under any `PSTATE` is the outcome of the state itself with that `PSTATE`. -/
theorem accessDoesNotDependOnPstate : Obligations.AccessDoesNotDependOnPstate := by
  intro i s p q wf
  have under (r : Pstate) :
      exec i { s with pstate := r } = mapNext (fun t => { t with pstate := r }) (exec i s) :=
    exec_withPstateAndLayout (fun _ => r) id i s
  constructor
  · intro halted
    obtain ⟨t, ht⟩ := exists_effect_of_wellFormed wf
    have completes : exec i s = .next (advance t) := by
      rw [exec_eq]
      exact (inDebugState_next _ _ _).2 ⟨halted, t, ht, rfl⟩
    exact ⟨advance t, by rw [under, completes]; rfl, by rw [under, completes]; rfl⟩
  · exact (accessIsUndefinedExactlyOutsideDebugState i { s with pstate := p }).2

/-- Settles O58. The outcome under one layout is the outcome under the other with the layout changed. -/
theorem meaningsDoNotDependOnTheWordLayout : Obligations.MeaningsDoNotDependOnTheWordLayout := by
  intro i s y y' under
  have other : exec i (under y' s) = mapNext (under y') (exec i (under y s)) :=
    exec_withPstateAndLayout id (fun _ => y') i (under y s)
  refine ⟨fun t outcome => ?_, fun f outcome => ?_, fun r outcome => ?_⟩ <;>
    rw [other, outcome] <;> rfl

end Sys2Proof.Proofs
end

section
/-!
What each access delivers, writes and leaves unchanged (41_sysreg_access.md R131 to R135).
-/
namespace Sys2Proof.Proofs

open Sys2Proof.Machine

variable {s : State}

theorem exec_mrsDspsr_gpr_reads (n : Fin 31) (halted : s.halted = true) :
    exec (.mrsDspsr (.gpr n)) s = .next (advance (writeX s n (readDspsr s))) :=
  (inDebugState_next _ _ _).2 ⟨halted, _, rfl, rfl⟩

theorem exec_msrDspsr_gpr_reads (n : Fin 31) (halted : s.halted = true) :
    exec (.msrDspsr (.gpr n)) s = .next (advance (writeDspsr s (readX s n))) :=
  (inDebugState_next _ _ _).2 ⟨halted, _, rfl, rfl⟩

theorem readDspsr_of_unknown (h : s.dspsr.unknown = true) :
    readDspsr s = writeMask s.params (Config.freeBits 64 s.drawIndex 0) := by
  rw [readDspsr, if_pos h]

theorem readX_of_unknown {n : Fin 31} (h : s.x[n].unknown = true) :
    readX s n = Config.freeBits 64 s.drawIndex 0 := by
  rw [readX, heldValue, if_pos h]

@[simp] theorem writeMask_zero (c : Params) : writeMask c 0#64 = 0#64 := by
  cases h : c.res0Policy <;> simp [writeMask, h]

/-- Settles O9. -/
theorem mrsDeliversTheRegister : Obligations.MrsDeliversTheRegister :=
  fun _ n _ halted held => exec_mrsDspsr_gpr n halted held

/-- Settles O10. The first read writes neither the register nor its mark, and advances the draws. -/
theorem mrsOfUnknownRegisterIsFree : Obligations.MrsOfUnknownRegisterIsFree := by
  intro s n m differ halted unknown
  refine ⟨_, _, exec_mrsDspsr_gpr_reads n halted, exec_mrsDspsr_gpr_reads m halted, ?_, ?_, rfl⟩
  · rw [advance_x, writeX_x_other _ _ _ _ differ, advance_x, writeX_x_same, readDspsr_of_unknown unknown]
  · have still_unknown : (advance (writeX s n (readDspsr s))).dspsr.unknown = true := unknown
    rw [advance_x, writeX_x_same, readDspsr_of_unknown still_unknown]
    rfl

/-- Settles O11. -/
theorem mrsToRegister31Discards : Obligations.MrsToRegister31Discards :=
  fun _ halted zr => (inDebugState_next _ _ _).2 ⟨halted, _, by rw [writeOperand, if_pos zr], rfl⟩

/-- Settles O12. -/
theorem msrWritesTheRegister : Obligations.MsrWritesTheRegister :=
  fun _ _ _ halted held => exec_msrDspsr_gpr halted held

/-- Settles O13. -/
theorem msrFromUnknownRegisterIsFree : Obligations.MsrFromUnknownRegisterIsFree := by
  intro s n halted unknown
  rw [exec_msrDspsr_gpr_reads n halted, readX_of_unknown unknown]
  rfl

/-- Settles O14. -/
theorem msrFromRegister31WritesZero : Obligations.MsrFromRegister31WritesZero := by
  intro s halted zr
  have written : (readOperand s .r31).map (writeDspsr s) = some { s with dspsr := .known 0#64 } := by
    simp [readOperand, zr, writeDspsr]
  exact (inDebugState_next _ _ _).2 ⟨halted, _, written, rfl⟩

/-- Settles O18. -/
theorem mrsFrame : Obligations.MrsFrame := by
  intro r s t next
  obtain ⟨-, u, written, rfl⟩ := (inDebugState_next _ _ _).1 next
  obtain ⟨n, rfl, rfl⟩ | ⟨rfl, -, rfl⟩ := writeOperand_cases _ _ _ _ written
  · refine ⟨fun m other => ?_, rfl, rfl, rfl, rfl, rfl⟩
    exact writeX_x_other _ _ _ _ fun same => other (congrArg Xt.gpr same.symm)
  · exact ⟨fun _ _ => rfl, rfl, rfl, rfl, rfl, rfl⟩

/-- Settles O19. -/
theorem msrFrame : Obligations.MsrFrame := by
  intro r s t next
  obtain ⟨-, u, written, rfl⟩ := (inDebugState_next _ _ _).1 next
  obtain ⟨v, -, rfl⟩ := Option.map_eq_some_iff.1 written
  exact ⟨rfl, rfl, rfl, rfl, rfl⟩

/-! ### Reads after a write -/

/-- A read in Debug state of a register that holds a value puts it into the destination. -/
theorem exists_read (s : State) {d : Xword} (m : Fin 31) (halted : s.halted = true) (held : s.dspsr = .known d) :
    ∃ u, exec (.mrsDspsr (.gpr m)) s = .next u ∧ u.x[m] = .known d :=
  ⟨_, exec_mrsDspsr_gpr m halted held, writeX_x_same s m d⟩

/-- Settles O20. The register holds `WriteMask(v)` when the read comes. -/
theorem readReturnsTheLatestWrite : Obligations.ReadReturnsTheLatestWrite := by
  intro s n m v halted held
  obtain ⟨u, read, delivered⟩ := exists_read (advance (writeDspsr s v)) m halted rfl
  exact ⟨_, u, exec_msrDspsr_gpr halted held, read, delivered⟩

/-- Settles O22. The second read writes another general register than the first. -/
theorem readsAreIdempotent : Obligations.ReadsAreIdempotent := by
  intro s n m v differ halted held
  refine ⟨_, _, exec_mrsDspsr_gpr n halted held,
    @exec_mrsDspsr_gpr (advance (writeX s n v)) v m halted held, ?_, ?_, rfl⟩
  · rw [advance_x, writeX_x_other _ _ _ _ differ, advance_x, writeX_x_same]
  · rw [advance_x, writeX_x_same]

end Sys2Proof.Proofs
end

section
/-!
The reserved bits and `WriteMask` (41_sysreg_access.md R133, 10_state.md R69).
-/
namespace Sys2Proof.Proofs

open Sys2Proof.Machine Sys2Proof.Claims

/-- Settles O23, by the two policies. -/
theorem writeMaskUnderTheTwoPolicies : Obligations.WriteMaskUnderTheTwoPolicies := by
  intro c v i hi
  cases policy : c.res0Policy with
  | razWi => exact getLsbD_writeMask_razWi c v i policy hi
  | stored => rw [writeMask_stored c v policy]

/-- Settles O25. Bit [9] has `Res0Eff` on no implementation. -/
theorem bitNineIsAlwaysStored : Obligations.BitNineIsAlwaysStored :=
  fun c v => slice_writeMask c v 9 1 (slice_res0Eff_of_never_reserved c 9 (by decide))

theorem writeMask_and_res0Eff (c : Params) (v : Xword) (zeros : v &&& res0Eff c = 0#64) :
    writeMask c v &&& res0Eff c = 0#64 := by
  cases policy : c.res0Policy with
  | razWi => exact writeMask_reserved c v policy
  | stored => rw [writeMask_stored c v policy, zeros]

/-- Settles O26. What the read delivers is `WriteMask(v)`, which keeps the zeros of `v`. -/
theorem zeroWrittenToReservedBitsReadsZero : Obligations.ZeroWrittenToReservedBitsReadsZero := by
  intro s n m v halted held zeros
  obtain ⟨t, u, write, read, delivered⟩ := readReturnsTheLatestWrite s n m v halted held
  exact ⟨t, u, _, write, read, delivered, writeMask_and_res0Eff _ _ zeros⟩

/-! ### A word by its fields -/

/-- The fields of the two views, split where the field of one view crosses that of the other
(10_state.md sections 2 and 3): each by its lowest bit and its width. -/
def viewFields : List (Nat × Nat) :=
  [(0, 4), (4, 1), (5, 1), (6, 4), (10, 2), (12, 1), (13, 7), (20, 2), (22, 1), (23, 1), (24, 1), (25, 1), (26, 2),
    (28, 4), (32, 32)]

/-- Two register words that agree on every field of the views are the same word. -/
theorem xword_ext (a b : Xword) (h : ∀ f ∈ viewFields, slice a f.1 f.2 = slice b f.1 f.2) : a = b := by
  apply BitVec.eq_of_getLsbD_eq
  intro k hk
  obtain ⟨f, mem, lower, upper⟩ := mem_field_of_apart viewFields 64 (by decide) (by decide) rfl k hk
  have bit := congrArg (fun v => v.getLsbD (k - f.1)) (h f mem)
  have in_field : k - f.1 < f.2 := by omega
  have position : f.1 + (k - f.1) = k := by omega
  simpa only [getLsbD_slice, in_field, position, decide_true, Bool.true_and] using bit

@[simp] theorem slice_span_same (lo w : Nat) (h : lo + w ≤ 64) : slice (span lo w) lo w = BitVec.allOnes w := by
  apply BitVec.eq_of_getLsbD_eq
  intro i hi
  rw [getLsbD_slice, getLsbD_span, BitVec.getLsbD_allOnes]
  simp [hi]
  omega

@[simp] theorem slice_spanIf_same (b : Bool) (lo w : Nat) (h : lo + w ≤ 64) :
    slice (spanIf b lo w) lo w = if b then BitVec.allOnes w else 0#w := by
  cases b <;> simp [spanIf, h]

/-- Settles O24. Each field of the views is reserved whole or not at all, on both sides by the same features; bit [23]
is the one field that depends on two of them, `SSBS` and `UAO`. -/
theorem res0EffIsReservedInEveryApplicableView : Obligations.Res0EffIsReservedInEveryApplicableView := by
  intro c
  cases aarch32 : c.haveAArch32AnyEl with
  | true =>
    rw [if_pos rfl]
    refine xword_ext _ _ ?_
    simp (disch := decide) only [viewFields, List.forall_mem_cons, res0Eff, res0ViewA64, res0ViewA32, aarch32,
      slice_or, slice_and, slice_span_same, slice_span_apart, slice_spanIf_same, slice_spanIf_apart]
    cases c.haveSsbs <;> cases c.haveUao <;> simp
  | false =>
    rw [if_neg Bool.false_ne_true, BitVec.and_allOnes]
    refine xword_ext _ _ ?_
    simp (disch := decide) only [viewFields, List.forall_mem_cons, res0Eff, res0ViewA64, aarch32,
      slice_or, slice_span_same, slice_span_apart, slice_spanIf_same, slice_spanIf_apart]
    cases c.haveSsbs <;> cases c.haveUao <;> simp

end Sys2Proof.Proofs
end

section
/-!
Debug state entry (40_debug_state_transfer.md section 1).
-/
namespace Sys2Proof.Proofs

open Sys2Proof.Machine

/-- The state Debug state entry from AArch64 state leaves. -/
def entered (s : State) : State :=
  advance { s with dspsr := .known (saveA64 s.params s.pstate s.drawIndex), pstate := .unk, halted := true }

variable {s : State}

theorem debugEntry_of_aarch64 (running : s.halted = false)
    (nRW : heldValue s.pstate.nRW s.drawIndex 4 = 0#1) : debugEntry s = .next (entered s) :=
  (debugEntry_next s _).2 ⟨running, nRW, rfl⟩

/-- A completed entry is one from AArch64 state. -/
theorem eq_entered_of_debugEntry {t : State} (entry : debugEntry s = .next t) : t = entered s :=
  let ⟨_, _, left⟩ := (debugEntry_next s t).1 entry
  left

@[simp] theorem readDspsr_entered : readDspsr (entered s) = saveA64 s.params s.pstate s.drawIndex :=
  readDspsr_of_known rfl

/-- Settles O27. The value saved is `saveA64`, whose slices are those of view A64. -/
theorem entryFromAArch64WritesViewA64 : Obligations.EntryFromAArch64WritesViewA64 := by
  intro s running nRW
  refine ⟨_, debugEntry_of_aarch64 running nRW, ?_⟩
  simp only [saveA64_n, saveA64_z, saveA64_c, saveA64_v, saveA64_tco, saveA64_dit, saveA64_uao, saveA64_pan,
    saveA64_ss, saveA64_il, saveA64_ssbs, saveA64_btype, saveA64_d, saveA64_a, saveA64_i, saveA64_f, saveA64_el,
    saveA64_sp, saveA64_upper, saveA64_res27, saveA64_res19, saveA64_res5, saveA64_m4, saveA64_m1, and_self]

/-- Settles O28. -/
theorem entryIsRefusedWhereItHasNoMeaning : Obligations.EntryIsRefusedWhereItHasNoMeaning := by
  intro s
  constructor
  · intro halted
    rw [debugEntry, if_pos halted]
  · intro running nRW
    have not_aarch64 : ¬ heldValue s.pstate.nRW s.drawIndex 4 = 0#1 := by rw [nRW]; decide
    rw [debugEntry, running, if_neg Bool.false_ne_true, if_neg not_aarch64]

/-- Settles O38. -/
theorem entryFrame : Obligations.EntryFrame := by
  intro s t entry
  obtain rfl := eq_entered_of_debugEntry entry
  rfl

/-- Settles O21. The state after an entry is in Debug state with the register holding the value saved. -/
theorem readReturnsTheEntryValue : Obligations.ReadReturnsTheEntryValue := by
  intro s m running nRW
  obtain ⟨u, read, delivered⟩ := exists_read (entered s) m rfl rfl
  exact ⟨_, u, _, debugEntry_of_aarch64 running nRW, rfl, read, delivered⟩

end Sys2Proof.Proofs
end

section
/-!
Debug state exit (40_debug_state_transfer.md section 2): where it goes and what it restores.
-/
namespace Sys2Proof.Proofs

open Sys2Proof.Machine Sys2Proof.Claims

/-! ### Where a register value says the exit goes -/

theorem viewBit_eq_zero_iff (c : Params) (d : Xword) :
    viewBit c d = 0#1 ↔ (c.haveAArch32AnyEl = true → slice d 4 1 = 0#1) := by
  cases h : c.haveAArch32AnyEl <;> simp [viewBit, h]

/-- The seven values of 10_state.md R67 are the listed ones. -/
theorem a64ModeOfBits_isSome_iff (m : BitVec 4) : (a64ModeOfBits m).isSome = true ↔ m ∈ a64Listed := by
  revert m
  decide

/-- The nine values of 10_state.md R45 are the listed ones. -/
theorem a32ModeOfBits_isSome_iff (m : BitVec 4) : (a32ModeOfBits m).isSome = true ↔ m ∈ a32Listed := by
  revert m
  decide

theorem returnTarget_aarch64_iff (c : Params) (d : Xword) (level : EL) :
    returnTarget c d = some (.aarch64 level) ↔
      viewBit c d = 0#1 ∧ slice d 0 4 ∈ a64Listed ∧ level = elOfBits (slice d 2 2) := by
  rw [returnTarget_aarch64, a64ModeOfBits_isSome_iff, a64ModeLevel_slice]

theorem returnTarget_of_viewA64 {c : Params} {d : Xword} {target : ReturnTarget} (view : viewBit c d = 0#1)
    (ht : returnTarget c d = some target) :
    slice d 0 4 ∈ a64Listed ∧ target = .aarch64 (elOfBits (slice d 2 2)) := by
  cases target with
  | aarch64 level =>
    obtain ⟨-, listed, rfl⟩ := (returnTarget_aarch64_iff _ _ _).1 ht
    exact ⟨listed, rfl⟩
  | aarch32 mode => exact absurd view ((returnTarget_aarch32 _ _ _).1 ht).1

theorem elSetAny_of_has {set : ElSet} {level : EL} (h : elSetHas set level = true) : elSetAny set = true := by
  cases level <;> simp_all [elSetHas, elSetAny]

/-- The global conditions of `EffE` follow from the per-level ones (92_eei_decisions.md D17). -/
theorem effE_eq (c : Params) (e : BitVec 1) (level : EL) :
    effE c e level =
      if elSetHas c.beSupportedAt level = false then 0#1
      else if elSetHas c.leSupportedAt level = false then 1#1
      else e := by
  have global (set : ElSet) : (!elSetAny set || !elSetHas set level) = !elSetHas set level := by
    cases h : elSetHas set level with
    | false => simp
    | true => simp [elSetAny_of_has h]
  simp only [effE, beSupported, leSupported, global, Bool.not_eq_true']

/-! ### Completed exits -/

variable {s t : State} {ssCopy other : Bool}

theorem debugExit_of_target {target : ReturnTarget} (halted : s.halted = true)
    (ht : returnTarget s.params (readDspsr s) = some target)
    (implemented : elSetHas s.params.implementedEl (returnLevel s.params target) = true) :
    debugExit ssCopy false s = .next (advance { s with
      halted := false, pstate := restorePstate s.params ssCopy (readDspsr s) target }) :=
  (debugExit_next _ _ _ _).2 ⟨halted, rfl, target, ht, implemented, rfl⟩

theorem debugExit_of_exitsToAArch64 (halted : s.halted = true) (exits : ExitsToAArch64 s (readDspsr s)) :
    debugExit ssCopy false s = .next (advance { s with
      halted := false, pstate := restoreA64 s.params ssCopy (readDspsr s) }) := by
  obtain ⟨view, listed, implemented⟩ := exits
  have ht := (returnTarget_aarch64_iff _ _ _).2 ⟨(viewBit_eq_zero_iff _ _).2 view, listed, rfl⟩
  exact debugExit_of_target halted ht implemented

theorem returnTarget_of_exitsToAArch32 {d : Xword} {mode : A32Mode} (exits : ExitsToAArch32 s d mode) :
    returnTarget s.params d = some (.aarch32 mode) := by
  obtain ⟨aarch32, view, named, -⟩ := exits
  refine (returnTarget_aarch32 _ _ _).2 ⟨?_, named⟩
  rw [Ne, viewBit_eq_zero_iff, view]
  exact fun h => absurd (h aarch32) (by decide)

theorem debugExit_of_exitsToAArch32 {mode : A32Mode} (halted : s.halted = true)
    (exits : ExitsToAArch32 s (readDspsr s) mode) :
    debugExit ssCopy false s = .next (advance { s with
      halted := false, pstate := restoreA32 s.params (a32ModeLevel s.params mode) (readDspsr s) }) :=
  have ⟨_, _, _, implemented⟩ := exits
  debugExit_of_target halted (returnTarget_of_exitsToAArch32 exits) implemented

/-- Settles O29. The `PSTATE` left is `restoreA64` of the register value. -/
theorem exitToAArch64CopiesViewA64 : Obligations.ExitToAArch64CopiesViewA64 := by
  rintro s ssCopy _ halted rfl exits
  refine ⟨_, debugExit_of_exitsToAArch64 halted exits, ?_⟩
  and_intros <;> rfl

/-- Settles O30. The `PSTATE` left is `restoreA32` of the register value, at the mode's Exception level. -/
theorem exitToAArch32CopiesViewA32 : Obligations.ExitToAArch32CopiesViewA32 := by
  rintro s ssCopy _ mode halted rfl exits
  refine ⟨_, debugExit_of_exitsToAArch32 halted exits, ?_⟩
  and_intros <;> rfl

/-- Settles O31. The target is the mode's, and the per-level conditions are all of `EffE`. -/
theorem exitForcesEndianness : Obligations.ExitForcesEndianness := by
  intro s t ssCopy other mode exits exit
  obtain ⟨-, -, target, ht, -, rfl⟩ := (debugExit_next _ _ _ _).1 exit
  obtain rfl : .aarch32 mode = target :=
    Option.some.inj ((returnTarget_of_exitsToAArch32 exits).symm.trans ht)
  rw [← effE_eq]
  rfl

/-- Settles O33. -/
theorem exitIsNotEnabledOutsideDebugState : Obligations.ExitIsNotEnabledOutsideDebugState := by
  intro s p q running
  rw [debugExit, running, if_neg Bool.false_ne_true]

/-- Settles O37. A completed exit is one of the outcomes `debugExit_leaves` describes. -/
theorem exitFrame : Obligations.ExitFrame := by
  intro s t p q exit
  obtain ⟨_, rfl⟩ := debugExit_leaves (.inl exit)
  rfl

/-! ### The illegal return condition -/

/-- No legal target: `M[3:0]` is reserved in the view that applies, or names a level that is not implemented
(40_debug_state_transfer.md R116). -/
theorem no_legal_target_iff (c : Params) (d : Xword) :
    (∀ target, returnTarget c d = some target →
        elSetHas c.implementedEl (returnLevel c target) = false) ↔
      (viewBit c d = 0#1 ∧
        (slice d 0 4 ∉ a64Listed ∨ elSetHas c.implementedEl (elOfBits (slice d 2 2)) = false)) ∨
      (viewBit c d ≠ 0#1 ∧
        (slice d 0 4 ∉ a32Listed ∨ ∃ mode, a32ModeOfBits (slice d 0 4) = some mode ∧
          elSetHas c.implementedEl (a32ModeLevel c mode) = false)) := by
  by_cases view : viewBit c d = 0#1
  · rw [or_iff_left fun h => h.1 view, and_iff_right view]
    constructor
    · intro none_legal
      by_cases listed : slice d 0 4 ∈ a64Listed
      · exact .inr (none_legal _ ((returnTarget_aarch64_iff _ _ _).2 ⟨view, listed, rfl⟩))
      · exact .inl listed
    · intro reserved target ht
      obtain ⟨listed, rfl⟩ := returnTarget_of_viewA64 view ht
      exact reserved.resolve_left (not_not_intro listed)
  · rw [or_iff_right fun h => view h.1, and_iff_right view, ← a32ModeOfBits_isSome_iff]
    cases named : a32ModeOfBits (slice d 0 4) <;>
      simp [returnTarget, view, named, returnLevel]

/-- Settles O32. The condition says that the register value has no legal target, or `other` holds. -/
theorem illegalReturnExactly : Obligations.IllegalReturnExactly := by
  intro s ssCopy other halted d aarch64 illegal
  have fault_iff : illegal ↔ ∀ target, returnTarget s.params d = some target →
      (elSetHas s.params.implementedEl (returnLevel s.params target) && !other) = false := by
    have legal_iff := no_legal_target_iff s.params d
    rw [Ne, viewBit_eq_zero_iff] at legal_iff
    cases other with
    | true => simp [illegal]
    | false => simp only [illegal, Bool.not_false, Bool.and_true, legal_iff, Bool.false_eq_true, or_false, aarch64]
  constructor
  · intro h
    exact (debugExit_fault _ _ _ _).2 ⟨halted, rfl, fault_iff.1 h⟩
  · intro legal
    rw [fault_iff] at legal
    push Not at legal
    obtain ⟨target, ht, ok⟩ := legal
    rw [Ne, Bool.not_eq_false, Bool.and_eq_true, Bool.not_eq_true'] at ok
    exact ⟨_, (debugExit_next _ _ _ _).2 ⟨halted, ok.2, target, ht, ok.1, rfl⟩⟩

end Sys2Proof.Proofs
end

section
/-!
What does not reach `PSTATE` at an exit: bit [4] without AArch32, the reserved bits of view A64, the fields of
absent features (40_debug_state_transfer.md R107, R114, R115).
-/
namespace Sys2Proof.Proofs

open Sys2Proof.Machine Sys2Proof.Claims

/-! ### Exits from two register values -/

/-- Two register values with the same target and the same `PSTATE` to restore have the same exit, the register
itself apart. -/
theorem debugExit_withRegister {s : State} {ssCopy other : Bool} {d d' : Xword}
    (same_target : returnTarget s.params d' = returnTarget s.params d)
    (same_pstate : ∀ target, returnTarget s.params d = some target →
      restorePstate s.params ssCopy d' target = restorePstate s.params ssCopy d target) :
    debugExit ssCopy other { s with dspsr := .known d' } =
      withRegister d' (debugExit ssCopy other { s with dspsr := .known d }) := by
  have value (e : Xword) : readDspsr { s with dspsr := .known e } = e := readDspsr_of_known rfl
  unfold debugExit
  rw [value, value, same_target]
  cases s.halted with
  | false => rfl
  | true =>
    cases ht : returnTarget s.params d with
    | none => rfl
    | some target =>
      simp only [same_pstate target ht, if_true]
      split <;> rfl

/-- The same for two values read in view A64, which name the same Exception level and restore the same fields. -/
theorem debugExit_withRegister_of_viewA64 {s : State} {ssCopy other : Bool} {d d' : Xword}
    (view : viewBit s.params d = 0#1) (view' : viewBit s.params d' = 0#1)
    (same_m : slice d' 0 4 = slice d 0 4)
    (same_pstate : restoreA64 s.params ssCopy d' = restoreA64 s.params ssCopy d) :
    debugExit ssCopy other { s with dspsr := .known d' } =
      withRegister d' (debugExit ssCopy other { s with dspsr := .known d }) := by
  refine debugExit_withRegister ?_ fun target ht => ?_
  · rw [returnTarget, returnTarget, view, view', same_m]
  · obtain ⟨-, rfl⟩ := returnTarget_of_viewA64 view ht
    exact same_pstate

theorem restoreA64_put_bit_four (c : Params) (ssCopy : Bool) (b : BitVec 1) (d : Xword) :
    restoreA64 c ssCopy (put 4 b d) = restoreA64 c ssCopy d := by
  simp (disch := decide) only [restoreA64, slice_put_apart]

/-- Settles O34. Without AArch32 the view is A64, which does not read bit [4]. -/
theorem bitFourHasNoEffectWithoutAArch32 : Obligations.BitFourHasNoEffectWithoutAArch32 := by
  intro s d b b' p q no_aarch32
  have view (e : Xword) : viewBit s.params e = 0#1 := by
    rw [viewBit, no_aarch32, if_neg Bool.false_ne_true]
  have m (e : BitVec 1) : slice (put 4 e d) 0 4 = slice d 0 4 := slice_put_apart 4 e d 0 4 (by decide) (by decide)
  constructor
  · refine debugExit_withRegister_of_viewA64 (view _) (view _) ?_ ?_
    · rw [m, m]
    · rw [restoreA64_put_bit_four, restoreA64_put_bit_four]
  · intro t exit
    obtain ⟨-, -, target, ht, -, rfl⟩ := (debugExit_next _ _ _ _).1 exit
    obtain ⟨-, rfl⟩ := returnTarget_of_viewA64 (view _) ht
    rfl

/-! ### Reserved bits -/

/-- Two words that agree outside a mask agree on a slice in which the mask has no bit. -/
theorem slice_eq_of_masked_eq {d d' mask : Xword} (agree : d &&& ~~~mask = d' &&& ~~~mask) {lo w : Nat}
    (clear : slice mask lo w = 0#w) : slice d lo w = slice d' lo w := by
  apply BitVec.eq_of_getLsbD_eq
  intro i hi
  have bit := congrArg (fun v => v.getLsbD (lo + i)) agree
  have clear_bit := congrArg (fun v => v.getLsbD i) clear
  simp only [BitVec.getLsbD_and, BitVec.getLsbD_not, BitVec.getLsbD_zero, getLsbD_slice, hi, decide_true,
    Bool.true_and] at bit clear_bit ⊢
  by_cases in_word : lo + i < 64
  · simpa only [in_word, clear_bit, decide_true, Bool.not_false, Bool.and_true] using bit
  · rw [BitVec.getLsbD_of_ge d _ (by omega), BitVec.getLsbD_of_ge d' _ (by omega)]

theorem ifHave_congr {w : Nat} {b : Bool} {v v' : BitVec w} (h : b = true → v = v') : ifHave b v = ifHave b v' := by
  cases b with
  | false => rfl
  | true => rw [h rfl]

/-- Settles O36. Every slice view A64 reads lies outside the reserved bits where its feature is there. -/
theorem reservedBitsDoNotReachPstate : Obligations.ReservedBitsDoNotReachPstate := by
  intro s t d d' p q agree bit_four bit_four' exit
  have same {lo w : Nat} (clear : slice (res0ViewA64 s.params) lo w = 0#w) : slice d' lo w = slice d lo w :=
    (slice_eq_of_masked_eq agree clear).symm
  have same_pstate : restoreA64 s.params p d' = restoreA64 s.params p d := by
    have same_if {b : Bool} {lo w : Nat} (clear : b = true → slice (res0ViewA64 s.params) lo w = 0#w) :
        ifHave b (slice d' lo w) = ifHave b (slice d lo w) := ifHave_congr fun h => same (clear h)
    simp (disch := simp +contextual [res0ViewA64]) only [restoreA64, same, same_if]
  have same_m : slice d' 0 4 = slice d 0 4 := same (by simp [res0ViewA64])
  rw [debugExit_withRegister_of_viewA64 ((viewBit_eq_zero_iff _ _).2 fun _ => bit_four)
    ((viewBit_eq_zero_iff _ _).2 fun _ => bit_four') same_m same_pstate, exit]
  rfl

/-! ### Absent features -/

theorem presentIf_ifHave {w : Nat} (b : Bool) (v : BitVec w) : (ifHave b v).PresentIf b := by
  rintro rfl
  rfl

theorem presentIf_unk (w : Nat) (b : Bool) : (Held.unk w).PresentIf b :=
  fun _ => rfl

/-- Neither view gives a value to the field of an absent feature. -/
theorem restorePstate_fitsFeatures (c : Params) (ssCopy : Bool) (d : Xword) (target : ReturnTarget) :
    (restorePstate c ssCopy d target).FitsFeatures c := by
  cases target with
  | aarch64 level =>
    constructor <;> exact presentIf_ifHave _ _
  | aarch32 mode =>
    exact ⟨presentIf_unk _ _, presentIf_ifHave _ _, presentIf_unk _ _, presentIf_ifHave _ _, presentIf_ifHave _ _,
      presentIf_unk _ _⟩

/-- Settles O35. Entry saves 0 for an absent feature, and what an exit restores fits the features. -/
theorem absentFeaturesTakeNoPart : Obligations.AbsentFeaturesTakeNoPart := by
  intro s t p q
  constructor
  · intro entry
    obtain rfl := eq_entered_of_debugEntry entry
    have saved : (entered s).dspsr.bits = saveA64 s.params s.pstate s.drawIndex := rfl
    simp +contextual only [saved, saveA64_tco, saveA64_dit, saveA64_uao, saveA64_pan, saveA64_ssbs, saveA64_btype,
      Bool.false_eq_true, if_false, implies_true, and_self]
  · intro exit
    obtain ⟨-, -, target, -, -, rfl⟩ := (debugExit_next _ _ _ _).1 exit
    obtain ⟨tco, dit, uao, pan, ssbs, btype⟩ := restorePstate_fitsFeatures s.params p (readDspsr s) target
    exact ⟨tco, dit, uao, pan, ssbs, btype⟩

end Sys2Proof.Proofs
end

section
/-!
An entry and the exit after it, with no write between (40_debug_state_transfer.md R118).
-/
namespace Sys2Proof.Proofs

open Sys2Proof.Machine Sys2Proof.Claims

theorem slice_saveA64_m (c : Params) (p : Pstate) (k : Nat) :
    slice (saveA64 c p k) 0 4 = heldValue p.el k 2 ++ 0#1 ++ heldValue p.sp k 0 := by
  rw [slice_m_parts, saveA64_el, saveA64_m1, saveA64_sp]

/-- `EL` and `SP` name a listed value unless they are (0, 1) (10_state.md R67). -/
theorem listed_of_el_sp (el : BitVec 2) (sp : BitVec 1) (h : ¬ (el = 0#2 ∧ sp = 1#1)) :
    el ++ 0#1 ++ sp ∈ a64Listed := by
  revert el sp
  decide

/-- An exit right after an entry restores view A64 of the value the entry saved. -/
theorem debugExit_entered {s : State} {ssCopy : Bool}
    (listed : heldValue s.pstate.el s.drawIndex 2 ++ 0#1 ++ heldValue s.pstate.sp s.drawIndex 0 ∈ a64Listed)
    (implemented : elSetHas s.params.implementedEl (elOfBits (heldValue s.pstate.el s.drawIndex 2)) = true) :
    debugExit ssCopy false (entered s) = .next (advance { entered s with
      halted := false
      pstate := restoreA64 s.params ssCopy (saveA64 s.params s.pstate s.drawIndex) }) := by
  have exits : ExitsToAArch64 (entered s) (readDspsr (entered s)) := by
    rw [readDspsr_entered]
    refine ⟨fun _ => saveA64_m4 _ _ _, ?_, ?_⟩
    · rwa [slice_saveA64_m]
    · rwa [saveA64_el]
  rw [debugExit_of_exitsToAArch64 rfl exits, readDspsr_entered]
  rfl

/-- Settles O39. Each field restored is the slice of the saved value that entry filled from it. -/
theorem entryThenExitRestoresPstate : Obligations.EntryThenExitRestoresPstate := by
  intro s ssCopy running nRW implemented not_el0h
  refine ⟨_, _, debugEntry_of_aarch64 running nRW,
    debugExit_entered (listed_of_el_sp _ _ not_el0h) implemented, rfl, ?_⟩
  simp +contextual [ifHave]

/-- Settles O40. The invariant's clause on AArch64 state says that the mode saved is listed and implemented. -/
theorem untouchedRegisterExitsLegally : Obligations.UntouchedRegisterExitsLegally := by
  intro s ssCopy inv running nRW
  obtain ⟨el, sp, hel, hsp, legal, implemented⟩ := inv.legalAArch64 nRW
  refine ⟨_, _, debugEntry_of_aarch64 running (by rw [nRW, heldValue_known]), debugExit_entered ?_ ?_⟩
  · rw [hel, hsp]
    exact (a64ModeOfBits_isSome_iff _).1 legal
  · rwa [hel]

end Sys2Proof.Proofs
end

section
/-!
The fields of 10_state.md that every implementation has, in every state: entry, exit, access and reset.
-/
namespace Sys2Proof.Proofs

open Sys2Proof.Machine Sys2Proof.Claims

variable {lo w : Nat} {get : Pstate → Held w}

theorem setOnEntry_of_saveA64 (saved : ∀ c p k, slice (saveA64 c p k) lo w = heldValue (get p) k lo) :
    SetOnEntry lo get :=
  fun _ running nRW => ⟨_, _, debugEntry_of_aarch64 running nRW, rfl, saved _ _ _⟩

theorem copiedOnExitToAArch64_of_restoreA64
    (restored : ∀ c ssCopy d, get (restoreA64 c ssCopy d) = .known (slice d lo w)) :
    CopiedOnExitToAArch64 lo get :=
  fun _ _ halted exits => ⟨_, debugExit_of_exitsToAArch64 halted exits, restored _ _ _⟩

theorem copiedOnExitToAArch32_of_restoreA32
    (restored : ∀ c d level, get (restoreA32 c level d) = .known (slice d lo w)) :
    CopiedOnExitToAArch32 lo get :=
  fun _ _ _ halted exits => ⟨_, debugExit_of_exitsToAArch32 halted exits, restored _ _ _⟩

theorem readWriteField_of_not_reserved (free : ∀ c, slice (res0Eff c) lo w = 0#w) : ReadWriteField lo w := by
  intro s n m v halted held
  obtain ⟨t, u, write, read, delivered⟩ := readReturnsTheLatestWrite s n m v halted held
  exact ⟨t, u, _, write, read, delivered, slice_writeMask _ _ _ _ (free _)⟩

theorem resetsToUnknown_of_not_reserved (free : ∀ c, slice (res0Eff c) lo w = 0#w) : ResetsToUnknown lo w := by
  intro s
  refine ⟨_, rfl, rfl, ?_⟩
  rw [readDspsr_of_unknown rfl, slice_writeMask _ _ _ _ (free _)]

theorem fieldOfViewA64_of (saved : ∀ c p k, slice (saveA64 c p k) lo w = heldValue (get p) k lo)
    (restored : ∀ c ssCopy d, get (restoreA64 c ssCopy d) = .known (slice d lo w))
    (free : ∀ c, slice (res0Eff c) lo w = 0#w) : FieldOfViewA64 lo get :=
  ⟨setOnEntry_of_saveA64 saved, copiedOnExitToAArch64_of_restoreA64 restored, readWriteField_of_not_reserved free,
    resetsToUnknown_of_not_reserved free⟩

theorem fieldOfViewA32_of (restored : ∀ c d level, get (restoreA32 c level d) = .known (slice d lo w))
    (free : ∀ c, slice (res0Eff c) lo w = 0#w) : FieldOfViewA32 lo get :=
  ⟨copiedOnExitToAArch32_of_restoreA32 restored, readWriteField_of_not_reserved free,
    resetsToUnknown_of_not_reserved free⟩

/-- Settles O41. Each flag is a bit that view A64 saves and restores and that is never reserved. -/
theorem conditionFlagsInViewA64 : Obligations.ConditionFlagsInViewA64 := by
  refine ⟨?_, ?_, ?_, ?_⟩
  · exact fieldOfViewA64_of saveA64_n restoreA64_n fun c => slice_res0Eff_of_never_reserved c 31 (by decide)
  · exact fieldOfViewA64_of saveA64_z restoreA64_z fun c => slice_res0Eff_of_never_reserved c 30 (by decide)
  · exact fieldOfViewA64_of saveA64_c restoreA64_c fun c => slice_res0Eff_of_never_reserved c 29 (by decide)
  · exact fieldOfViewA64_of saveA64_v restoreA64_v fun c => slice_res0Eff_of_never_reserved c 28 (by decide)

/-- Settles O42. `IL` and the masks are bits that view A64 saves and restores and that are never reserved. -/
theorem masksAndIllegalStateInViewA64 : Obligations.MasksAndIllegalStateInViewA64 := by
  refine ⟨?_, ?_, ?_, ?_⟩
  · exact fieldOfViewA64_of saveA64_il restoreA64_il fun c => slice_res0Eff_of_never_reserved c 20 (by decide)
  · exact fieldOfViewA64_of saveA64_a restoreA64_a fun c => slice_res0Eff_of_never_reserved c 8 (by decide)
  · exact fieldOfViewA64_of saveA64_i restoreA64_i fun c => slice_res0Eff_of_never_reserved c 7 (by decide)
  · exact fieldOfViewA64_of saveA64_f restoreA64_f fun c => slice_res0Eff_of_never_reserved c 6 (by decide)

/-- Settles O43. Each flag and `IL` is a bit that view A32 restores and that is never reserved. -/
theorem conditionFlagsInViewA32 : Obligations.ConditionFlagsInViewA32 := by
  refine ⟨?_, ?_, ?_, ?_, ?_⟩
  · exact fieldOfViewA32_of restoreA32_n fun c => slice_res0Eff_of_never_reserved c 31 (by decide)
  · exact fieldOfViewA32_of restoreA32_z fun c => slice_res0Eff_of_never_reserved c 30 (by decide)
  · exact fieldOfViewA32_of restoreA32_c fun c => slice_res0Eff_of_never_reserved c 29 (by decide)
  · exact fieldOfViewA32_of restoreA32_v fun c => slice_res0Eff_of_never_reserved c 28 (by decide)
  · exact fieldOfViewA32_of restoreA32_il fun c => slice_res0Eff_of_never_reserved c 20 (by decide)

end Sys2Proof.Proofs
end

section
/-!
What every step keeps (`State.Inv`), action by action.
-/
namespace Sys2Proof.Proofs

open Sys2Proof.Machine Sys2Proof.Claims

/-! ### Contents in canonical form -/

@[simp] theorem canonical_known {w : Nat} (v : BitVec w) : (Held.known v).Canonical :=
  fun unknown => absurd unknown Bool.false_ne_true

@[simp] theorem canonical_unk (w : Nat) : (Held.unk w).Canonical :=
  fun _ => rfl

@[simp] theorem canonical_ifHave {w : Nat} (b : Bool) (v : BitVec w) : (ifHave b v).Canonical := by
  cases b with
  | false => exact canonical_unk w
  | true => exact canonical_known v

/-! ### Process states that may stand outside Debug state -/

/-- The clauses of the invariant about `PSTATE` alone. -/
structure SoundPstate (c : Params) (p : Pstate) : Prop where
  canonical    : p.Canonical
  fitsFeatures : p.FitsFeatures c
  legalAArch64 : p.LegalAArch64 c
  legalAArch32 : p.LegalAArch32 c

theorem soundPstate_unk (c : Params) : SoundPstate c .unk where
  canonical := by constructor <;> exact canonical_unk _
  fitsFeatures := by constructor <;> exact presentIf_unk _ _
  legalAArch64 := fun nRW => absurd nRW (by decide)
  legalAArch32 := fun nRW => absurd nRW (by decide)

/-- Bit [1] is clear in every listed value of view A64 (10_state.md R67). -/
theorem a64ModeOfBits_clear_bit_one (el : BitVec 2) (b sp : BitVec 1)
    (listed : el ++ b ++ sp ∈ a64Listed) : (a64ModeOfBits (el ++ 0#1 ++ sp)).isSome = true := by
  revert el b sp
  decide

theorem soundPstate_restoreA64 {c : Params} {ssCopy : Bool} {d : Xword} (listed : slice d 0 4 ∈ a64Listed)
    (implemented : elSetHas c.implementedEl (elOfBits (slice d 2 2)) = true) :
    SoundPstate c (restoreA64 c ssCopy d) where
  canonical := by constructor <;> simp
  fitsFeatures := restorePstate_fitsFeatures c ssCopy d (.aarch64 .el0)
  legalAArch64 := by
    rw [slice_m_parts] at listed
    exact fun _ => ⟨_, _, rfl, rfl, a64ModeOfBits_clear_bit_one _ _ _ listed, implemented⟩
  legalAArch32 := fun nRW => absurd nRW (by rw [restoreA64_nRW]; decide)

theorem soundPstate_restoreA32 {c : Params} {d : Xword} {mode : A32Mode} (aarch32 : c.haveAArch32AnyEl = true)
    (named : a32ModeOfBits (slice d 0 4) = some mode)
    (implemented : elSetHas c.implementedEl (a32ModeLevel c mode) = true) :
    SoundPstate c (restoreA32 c (a32ModeLevel c mode) d) where
  canonical := by constructor <;> simp
  fitsFeatures := restorePstate_fitsFeatures c false d (.aarch32 mode)
  legalAArch64 := fun nRW => absurd nRW (by rw [restoreA32_nRW]; decide)
  legalAArch32 := fun _ => ⟨aarch32, _, mode, rfl, named, implemented⟩

/-- A completed exit restores a sound `PSTATE`. -/
theorem soundPstate_restorePstate {c : Params} {ssCopy : Bool} {d : Xword} {target : ReturnTarget}
    (ht : returnTarget c d = some target) (implemented : elSetHas c.implementedEl (returnLevel c target) = true) :
    SoundPstate c (restorePstate c ssCopy d target) := by
  cases target with
  | aarch64 level =>
    obtain ⟨-, listed, rfl⟩ := (returnTarget_aarch64_iff _ _ _).1 ht
    exact soundPstate_restoreA64 listed implemented
  | aarch32 mode =>
    obtain ⟨view, named⟩ := (returnTarget_aarch32 _ _ _).1 ht
    rw [Ne, viewBit_eq_zero_iff, Classical.not_imp] at view
    exact soundPstate_restoreA32 view.1 named implemented

/-! ### Each action keeps the invariant -/

variable {s t : State}

/-- The draw counter and the schedule are no part of the invariant. -/
theorem inv_congr (inv : s.Inv) (params : t.params = s.params) (dspsr : t.dspsr = s.dspsr) (x : t.x = s.x)
    (pstate : t.pstate = s.pstate) (halted : t.halted = s.halted) : t.Inv := by
  obtain ⟨_, _, _, _, _, _, _, _⟩ := inv
  constructor <;> simp only [params, dspsr, x, pstate, halted] <;> assumption

theorem inv_advance (inv : s.Inv) : (advance s).Inv :=
  inv_congr inv rfl rfl rfl rfl rfl

theorem inv_writeX (inv : s.Inv) (n : Fin 31) (v : Xword) : (writeX s n v).Inv :=
  { inv with
    xCanonical := fun m => by
      by_cases same : m = n
      · rw [same, writeX_x_same]
        exact canonical_known v
      · rw [writeX_x_other _ _ _ _ same]
        exact inv.xCanonical m }

theorem inv_writeDspsr (inv : s.Inv) (v : Xword) : (writeDspsr s v).Inv :=
  { inv with
    dspsrCanonical := canonical_known _
    reservedZero := writeMask_reserved s.params v }

/-- The invariant from its clauses, those about `PSTATE` alone together. -/
theorem inv_of_soundPstate (sound : SoundPstate s.params s.pstate) (dspsr : s.dspsr.Canonical)
    (x : ∀ n : Fin 31, s.x[n].Canonical)
    (reserved : s.params.res0Policy = .razWi → s.dspsr.bits &&& res0Eff s.params = 0#64)
    (debug : s.halted = true → s.pstate = .unk) : s.Inv :=
  ⟨dspsr, x, sound.canonical, reserved, debug, sound.fitsFeatures, sound.legalAArch64, sound.legalAArch32⟩

theorem inv_entered (inv : s.Inv) : (entered s).Inv :=
  inv_of_soundPstate (soundPstate_unk s.params) (canonical_known _) inv.xCanonical
    (fun _ => saveA64_reserved _ _ _) fun _ => rfl

/-- Debug state left with a sound `PSTATE`. -/
theorem inv_exited (inv : s.Inv) {p : Pstate} (sound : SoundPstate s.params p) :
    State.Inv { s with halted := false, pstate := p } :=
  inv_of_soundPstate sound inv.dspsrCanonical inv.xCanonical inv.reservedZero
    fun halted => absurd halted Bool.false_ne_true

/-- A state in which no register holds a value meets the invariant, in Debug state or not. -/
theorem inv_of_no_value (dspsr : s.dspsr = .unk 64) (x : s.x = Vector.replicate 31 (.unk 64))
    (pstate : s.pstate = .unk) : s.Inv := by
  refine inv_of_soundPstate ?_ ?_ (fun n => ?_) (fun _ => ?_) fun _ => pstate
  · rw [pstate]
    exact soundPstate_unk s.params
  · rw [dspsr]
    exact canonical_unk 64
  · simp [x]
  · rw [dspsr, unk_bits, BitVec.zero_and]

theorem inv_runAction (a : Action) (inv : s.Inv) (next : runAction a s = .next t) : t.Inv := by
  obtain ⟨_, r, u, -, -, -, written, rfl⟩ | ⟨_, _, v, -, -, -, -, rfl⟩ | ⟨-, entry⟩ | ⟨_, _, -, exit⟩ |
    ⟨-, reset⟩ | ⟨n, v, -, rfl⟩ := runAction_next_cases a s t next
  · obtain ⟨n, -, rfl⟩ | ⟨-, -, rfl⟩ := writeOperand_cases _ _ _ _ written
    · exact inv_advance (inv_writeX inv n _)
    · exact inv_advance inv
  · exact inv_advance (inv_writeDspsr inv v)
  · obtain rfl := eq_entered_of_debugEntry entry
    exact inv_entered inv
  · obtain ⟨-, -, target, ht, implemented, rfl⟩ := (debugExit_next _ _ _ _).1 exit
    exact inv_advance (inv_exited inv (soundPstate_restorePstate ht implemented))
  · cases reset
    exact inv_of_no_value rfl rfl rfl
  · exact inv_advance (inv_writeX inv n v)

/-- Settles O46. Taking the action off the schedule keeps the invariant, and so does every action. -/
theorem stepKeepsTheInvariant : Obligations.StepKeepsTheInvariant := by
  intro s t inv next
  obtain ⟨-, rfl⟩ | ⟨a, rest, -, next⟩ := step_next_cases s t next
  · exact inv
  · have taken : State.Inv { s with schedule := rest } := inv_congr inv rfl rfl rfl rfl rfl
    exact inv_runAction a taken next

/-- Settles O47. No register of the launch state holds a value. -/
theorem launchStateMeetsTheInvariant : Obligations.LaunchStateMeetsTheInvariant :=
  inv_of_no_value rfl rfl rfl

/-! ### Reset -/

theorem replicate_unknown (n : Fin 31) : (Vector.replicate 31 (Held.unk 64))[n].unknown = true := by
  simp

/-- Settles O44. -/
theorem resetLeavesNoValue : Obligations.ResetLeavesNoValue :=
  fun _ => ⟨_, rfl, rfl, replicate_unknown, rfl, rfl, rfl, rfl⟩

/-- Settles O45. -/
theorem launchStateHoldsNoValue : Obligations.LaunchStateHoldsNoValue :=
  ⟨rfl, replicate_unknown, rfl, rfl, rfl⟩

end Sys2Proof.Proofs
end

section
/-!
What one step changes: everything a step with a next state can do, and from it who writes each part of the
state.
-/
namespace Sys2Proof.Proofs

open Sys2Proof.Machine

/-- The state with the head action done and its draws used up. -/
def afterAction (s : State) (rest : List Action) : State :=
  advance { s with schedule := rest }

/-- `Effect s t`: a step takes `s` to `t`, and by which action. -/
inductive Effect (s : State) : State → Prop where
  | idle : Effect s s
  | discard (rest : List Action) : Effect s (afterAction s rest)
  | read (w : Iword) (rest : List Action) (n : Fin 31) (v : Xword)
      (head : s.schedule = .word w :: rest)
      (decoded : decode s.params.sysregWordLayout w = .ok (.mrsDspsr (.gpr n))) (halted : s.halted = true) :
      Effect s (writeX (afterAction s rest) n v)
  | write (w : Iword) (rest : List Action) (r : Xt) (v : Xword)
      (head : s.schedule = .word w :: rest)
      (decoded : decode s.params.sysregWordLayout w = .ok (.msrDspsr r)) (halted : s.halted = true) :
      Effect s (writeDspsr (afterAction s rest) v)
  | entry (rest : List Action) (head : s.schedule = .debugEntry :: rest) (running : s.halted = false) :
      Effect s (entered { s with schedule := rest })
  | exit (ssCopy other : Bool) (rest : List Action) (p : Pstate)
      (head : s.schedule = .debugExit ssCopy other :: rest) :
      Effect s { afterAction s rest with halted := false, pstate := p }
  | reset (rest : List Action) (h : Bool) (head : s.schedule = .reset :: rest) :
      Effect s { afterAction s rest with
        dspsr := .unk 64, x := Vector.replicate 31 (.unk 64), pstate := .unk, halted := h }
  | setX (n : Fin 31) (v : Xword) (rest : List Action) (head : s.schedule = .setX n v :: rest) :
      Effect s (writeX (afterAction s rest) n v)

variable {s t : State}

theorem effect_of_step (next : step s = .next t) : Effect s t := by
  obtain ⟨-, rfl⟩ | ⟨a, rest, head, next⟩ := step_next_cases s t next
  · exact .idle
  obtain ⟨w, r, u, rfl, decoded, halted, written, rfl⟩ | ⟨w, r, v, rfl, decoded, halted, -, rfl⟩ |
    ⟨rfl, entry⟩ | ⟨p, q, rfl, exit⟩ | ⟨rfl, reset⟩ | ⟨n, v, rfl, rfl⟩ := runAction_next_cases a _ t next
  · obtain ⟨n, rfl, rfl⟩ | ⟨-, -, rfl⟩ := writeOperand_cases _ _ _ _ written
    · exact .read w rest n _ head decoded halted
    · exact .discard rest
  · exact .write w rest r v head decoded halted
  · obtain ⟨running, -, rfl⟩ := (debugEntry_next _ _).1 entry
    exact .entry rest head running
  · obtain ⟨-, -, target, -, -, rfl⟩ := (debugExit_next _ _ _ _).1 exit
    exact .exit p q rest _ head
  · cases reset
    exact .reset rest _ head
  · exact .setX n v rest head

/-- Settles O48, by what a step can do. -/
theorem stepKeepsTheParameters : Obligations.StepKeepsTheParameters := by
  intro s t next
  cases effect_of_step next <;> rfl

/-- Settles O49, by what a step can do. -/
theorem onlyThreeStepsWriteTheRegister : Obligations.OnlyThreeStepsWriteTheRegister := by
  intro s t next changed
  cases effect_of_step next with
  | write w rest r v head decoded halted => exact .inl ⟨w, r, rest, head, decoded, halted⟩
  | entry rest head running => exact .inr (.inl ⟨rest, head, running⟩)
  | reset rest h head => exact .inr (.inr ⟨rest, head⟩)
  | _ => exact absurd rfl changed

/-- Settles O50, by what a step can do. -/
theorem onlyEventsEnterOrLeaveDebugState : Obligations.OnlyEventsEnterOrLeaveDebugState := by
  intro s t next changed
  cases effect_of_step next with
  | entry rest head running => exact .inl ⟨rest, head, rfl⟩
  | exit ssCopy other rest p head => exact .inr (.inl ⟨ssCopy, other, rest, head, rfl⟩)
  | reset rest h head => exact .inr (.inr ⟨rest, head⟩)
  | _ => exact absurd rfl changed

/-- Settles O51, by what a step can do. -/
theorem onlyEventsChangePstate : Obligations.OnlyEventsChangePstate := by
  intro s t next changed
  cases effect_of_step next with
  | entry rest head running => exact .inl ⟨rest, head, rfl⟩
  | exit ssCopy other rest p head => exact .inr (.inl ⟨ssCopy, other, rest, head⟩)
  | reset rest h head => exact .inr (.inr ⟨rest, head, rfl⟩)
  | _ => exact absurd rfl changed

/-- A write of a general register changes no other. -/
theorem eq_of_writeX_changes (s : State) {n m : Fin 31} {v : Xword}
    (changed : (writeX s m v).x[n] ≠ s.x[n]) : m = n := by
  by_contra differ
  exact changed (writeX_x_other _ _ _ _ fun same => differ same.symm)

/-- Settles O52, by what a step can do; a write of `x[m]` changes `x[n]` only where `m = n`. -/
theorem onlyItsOwnWritersChangeARegister : Obligations.OnlyItsOwnWritersChangeARegister := by
  intro s t n next changed
  cases effect_of_step next with
  | read w rest m v head decoded halted =>
    obtain rfl := eq_of_writeX_changes (afterAction s rest) changed
    exact .inl ⟨w, rest, head, decoded, halted⟩
  | setX m v rest head =>
    obtain rfl := eq_of_writeX_changes (afterAction s rest) changed
    exact .inr (.inl ⟨v, rest, head⟩)
  | reset rest h head => exact .inr (.inr ⟨rest, head⟩)
  | _ => exact absurd rfl changed

/-! ### Faults -/

theorem exists_action_of_step_fault {f : Fault} (fault : step s = .fault f) :
    ∃ a rest, s.schedule = a :: rest ∧ runAction a { s with schedule := rest } = .fault f := by
  cases head : s.schedule with
  | nil => simp [step, runNext, head] at fault
  | cons a rest => exact ⟨a, rest, rfl, by rw [← step_of_schedule head, fault]⟩

theorem runWord_fault {w : Iword} {f : Fault} (fault : runWord w s = .fault f) :
    f = .undefined ∧ s.halted = false ∧ ∃ i, decode s.params.sysregWordLayout w = .ok i := by
  unfold runWord at fault
  split at fault
  · next i decoded =>
    rw [exec_eq] at fault
    obtain ⟨running, undefined⟩ := (inDebugState_fault _ _ _).1 fault
    exact ⟨undefined, running, i, decoded⟩
  · cases fault

/-- Settles O53, by the action at the head of the schedule: a word and a Debug state
exit are those that can fault. -/
theorem theTwoAbnormalOutcomes : Obligations.TheTwoAbnormalOutcomes := by
  intro s f fault
  obtain ⟨a, rest, head, fault⟩ := exists_action_of_step_fault fault
  cases a with
  | word w =>
    obtain ⟨undefined, running, i, decoded⟩ := runWord_fault fault
    exact .inl ⟨undefined, running, w, i, rest, head, decoded⟩
  | debugEntry => exact absurd fault (debugEntry_no_fault _ _)
  | debugExit p q =>
    obtain ⟨halted, rfl, -⟩ := (debugExit_fault _ _ _ _).1 fault
    exact .inr ⟨halted, ⟨p, q, rest, head⟩, _, _, rfl, rfl, rfl, rfl⟩
  | reset => cases fault
  | setX n v => cases fault

end Sys2Proof.Proofs
end
